-- ==== Sys2Proof/Word.lean ====
section
/-! DEFINITION. Sys2Proof/Word.lean: the word and character types of the block and their plainest conversions.
Rules: spec/00_scope.md R9 (numbers, two's complement), R10 (bits), R12 (text). -/

namespace Sys2Proof

/-- A 32-bit word: a general register, a memory word, an immediate (`i32`), a jump address (`u32`) or the pc
(R6, R21, R25, R44). `toInt` is its signed value, `toNat` its unsigned value: two's complement (R9, log 9). -/
abbrev Word := BitVec 32

/-- A character of a line: "a character is an 8-bit code" (R12). -/
abbrev Chr := BitVec 8

/-- A line of instruction text: "a finite sequence of characters" (R12). -/
abbrev Line := List Chr

/-- The index of a general register that exists: NREG is 32, so 0 to 31 (R6, R21, R65). -/
abbrev Reg := Fin 32

/-- The index of a memory word that exists, 0 to 1023 (R40, R42). -/
abbrev MemIndex := Fin 1024

/-- The number of a register as an Instruction carries it, a plain integer (R65). -/
abbrev Reg.num (r : Reg) : Int := (r.val : Int)

/-- `wrap32s` and `wrap32u` (R9): the word congruent to `v` modulo 2^32. One bit pattern serves both: its `toInt` is
`wrap32s v`, its `toNat` is `wrap32u v`. -/
def wrap32 (v : Int) : Word := BitVec.ofInt 32 v

/-- The ASCII codes of a text (R12). -/
def text (s : String) : Line := s.toList.map fun c => BitVec.ofNat 8 c.toNat

end Sys2Proof
end

