-- ==== Sys2Proof/Config.lean ====
section
/-! DEFINITION. Sys2Proof/Config.lean: the implementation parameters of spec/00_scope.md R6, "fixed constants of this
hardware, not arguments of the model". The one selectable parameter, OVERFLOW_PC_STEP, is `overflowPcStep` of
Machine/Ops.lean; NREG, 32, is the size of the type `Reg` of Word.lean. The spec leaves no value undefined, so no free
value stands here. -/

namespace Sys2Proof.Config

/-- MEMWORDS, the number of memory words (R6, R28). -/
abbrev memWords : Nat := 1024

/-- ISIZE, the instruction size in bytes (R6, R69). -/
abbrev isize : Nat := 4

/-- PCLIMIT, the exclusive upper bound of a valid pc or target (R6, R27). -/
abbrev pcLimit : Nat := 4096

/-- MAXLINE, the longest line that is decoded (R6, R77, log 15). -/
abbrev maxLine : Nat := 99

/-- INT_MAX (R6, R9). -/
abbrev intMax : Int := 2147483647

/-- INT_MIN (R6, R9; from general knowledge, U1, log 9). -/
abbrev intMin : Int := -2147483648

/-- LINKREG, the register JAL writes (R6, R167). -/
abbrev linkReg : Reg := 31

end Sys2Proof.Config
end

