-- ==== Sys2Proof/Syntax.lean ====
section
/-! DEFINITION. Sys2Proof/Syntax.lean: the structured Instruction (spec/30_encoding.md R60 to R68), the twelve
operations, and the closed result types of the two operations (spec/00_scope.md R14). -/

namespace Sys2Proof

/-- The twelve operations (R67), one per row of spec/opcode_table.json. -/
inductive Op where
  | add | sub | and | or | slt | jr | addi | beq | lw | sw | j | jal
deriving DecidableEq, Repr

/-- The four cases of the tagged Instruction (R60). -/
inductive Format where
  | registerOp | immediateArith | immediateMem | jump
deriving DecidableEq, Repr

/-- A structured Instruction (R60): one constructor per operation, that is per (case, selector) pair of R67.
Register fields are plain integers (R65, D18, log 19); immediates are `i32` (R62, R63) and addresses `u32` (R64). -/
inductive Instr where
  /-- RegisterOp, function ADD (R61, R137). -/
  | add (rd rs rt : Int)
  /-- RegisterOp, function SUB (R61, R138). -/
  | sub (rd rs rt : Int)
  /-- RegisterOp, function AND (R61, R139). -/
  | and (rd rs rt : Int)
  /-- RegisterOp, function OR (R61, R140). -/
  | or (rd rs rt : Int)
  /-- RegisterOp, function SLT (R61, R141). -/
  | slt (rd rs rt : Int)
  /-- RegisterOp, function JR: only `rs` is meaningful (R61, R66, R161). -/
  | jr (rd rs rt : Int)
  /-- ImmediateArith, opcode ADDI: `rs` is the source, `rt` the destination (R62, R142). -/
  | addi (rs rt : Int) (immediate : Word)
  /-- ImmediateArith, opcode BEQ: `rs`, `rt` compared, `immediate` the offset in instructions (R62, R163). -/
  | beq (rs rt : Int) (immediate : Word)
  /-- ImmediateMem, opcode LW: `rs` the base, `rt` the register loaded (R63, R151). -/
  | lw (rs rt : Int) (immediate : Word)
  /-- ImmediateMem, opcode SW: `rs` the base, `rt` the register stored (R63, R152). -/
  | sw (rs rt : Int) (immediate : Word)
  /-- Jump, opcode J (R64, R165). -/
  | j (address : Word)
  /-- Jump, opcode JAL (R64, R167). -/
  | jal (address : Word)
deriving DecidableEq, Repr

/-- The operation an Instruction stands for: its case and selector together (R60). -/
def Instr.op : Instr → Op
  | .add .. => .add
  | .sub .. => .sub
  | .and .. => .and
  | .or .. => .or
  | .slt .. => .slt
  | .jr .. => .jr
  | .addi .. => .addi
  | .beq .. => .beq
  | .lw .. => .lw
  | .sw .. => .sw
  | .j .. => .j
  | .jal .. => .jal

/-- The Instruction case of each operation (R67, column "Instruction case and selector"). -/
def Op.format : Op → Format
  | .add | .sub | .and | .or | .slt | .jr => .registerOp
  | .addi | .beq => .immediateArith
  | .lw | .sw => .immediateMem
  | .j | .jal => .jump

/-- The twelve lowercase mnemonics (R67, R76). -/
def Op.mnemonic : Op → Line
  | .add => text "add"
  | .sub => text "sub"
  | .and => text "and"
  | .or => text "or"
  | .slt => text "slt"
  | .jr => text "jr"
  | .addi => text "addi"
  | .beq => text "beq"
  | .lw => text "lw"
  | .sw => text "sw"
  | .j => text "j"
  | .jal => text "jal"

/-- The twelve operations in the order of the opcode table. -/
def Op.all : List Op := [.add, .sub, .and, .or, .slt, .jr, .addi, .beq, .lw, .sw, .j, .jal]

/-- The register fields that are meaningful for the operation, the ones the Executor tests (R123): all three of a
three-register form, `rs` of JR, `rs` and `rt` of an I form, none of a jump. -/
def Instr.meaningfulRegs : Instr → List Int
  | .add rd rs rt | .sub rd rs rt | .and rd rs rt | .or rd rs rt | .slt rd rs rt => [rd, rs, rt]
  | .jr _ rs _ => [rs]
  | .addi rs rt _ | .beq rs rt _ | .lw rs rt _ | .sw rs rt _ => [rs, rt]
  | .j _ | .jal _ => []

/-- The two decode errors (R14, R102). -/
inductive DecodeError where
  /-- "malformed instruction text" (R176). Raised only by `decode`. -/
  | parameterError
  /-- A register index outside [0, 31] in the text (R177). -/
  | registerError
deriving DecidableEq, Repr

/-- The three execution errors (R14, R120). -/
inductive ExecError where
  /-- A meaningful register field outside [0, 31] (R177, R123). -/
  | registerError
  /-- A bad word index or a bad jump or branch target (R178). -/
  | memoryError
  /-- A signed overflow detected in ADD, SUB or ADDI (R179). -/
  | overflowError
deriving DecidableEq, Repr

/-- `DecodeResult` (R14): an Instruction or one of the two decode errors. -/
abbrev DecodeResult := Except DecodeError Instr

/-- `ExecResult` (R14): `Ok`, which carries no data, or one of the three execution errors. -/
abbrev ExecResult := Except ExecError Unit

end Sys2Proof
end

