-- ==== Sys2Proof/WellFormed.lean ====
section
/-! DEFINITION. Sys2Proof/WellFormed.lean: the shared predicate `ValidReg`, well-formed Instructions, the
Instructions that have a machine word, and the grammar of well-formed lines, written as relations of their own so
that the decoder can be held against them. Rules: spec/30_encoding.md R65, R66, R70, R72 to R77. -/

namespace Sys2Proof

/-- `ValidReg(r)`: 0 <= r <= 31 (R65). -/
abbrev ValidReg (r : Int) : Prop := 0 ≤ r ∧ r ≤ 31

/-- An Instruction the Decoder can produce: every meaningful register field is valid (R65) and the fields of JR that
are not meaningful are 0 (R66). Immediates and addresses are typed to their range, so nothing is left to test. -/
def Instr.wellFormed : Instr → Bool
  | .add rd rs rt | .sub rd rs rt | .and rd rs rt | .or rd rs rt | .slt rd rs rt =>
      decide (ValidReg rd ∧ ValidReg rs ∧ ValidReg rt)
  | .jr rd rs rt => decide (rd = 0 ∧ ValidReg rs ∧ rt = 0)
  | .addi rs rt _ | .beq rs rt _ | .lw rs rt _ | .sw rs rt _ => decide (ValidReg rs ∧ ValidReg rt)
  | .j _ | .jal _ => true

/-- The operand fits its field of the machine word: an immediate in [-32768, 32767], an address in [0, 67108863]
(R70; the layout is from general knowledge, log 6). The Decoder enforces neither range (R71). -/
def Instr.operandFits : Instr → Bool
  | .add .. | .sub .. | .and .. | .or .. | .slt .. | .jr .. => true
  | .addi _ _ imm | .beq _ _ imm | .lw _ _ imm | .sw _ _ imm => decide (-32768 ≤ imm.toInt ∧ imm.toInt ≤ 32767)
  | .j address | .jal address => decide (address.toNat ≤ 67108863)

/-- A machine word exists for the Instruction (R70). -/
def Instr.hasWord (i : Instr) : Bool := i.wellFormed && i.operandFits

/-! The grammar of R72 to R77. -/

/-- A whitespace character: space 0x20 or tab 0x09, and no other (R72, log 16). -/
abbrev IsSpace (c : Chr) : Prop := c = 0x20#8 ∨ c = 0x09#8

/-- The character of a decimal digit, `0` to `9` at 0x30 to 0x39 (R12, R73). -/
def digitChr (d : Fin 10) : Chr := BitVec.ofNat 8 (0x30 + d.val)

/-- `UINT = DIGIT+` with its decimal value (R73). -/
inductive UIntText : Line → Nat → Prop where
  | digit (d : Fin 10) : UIntText [digitChr d] d.val
  | more (t : Line) (n : Nat) (d : Fin 10) (h : UIntText t n) : UIntText (t ++ [digitChr d]) (10 * n + d.val)

/-- `INT = "-"? DIGIT+` with its value, negated if `-` is present (R73). -/
inductive IntText : Line → Int → Prop where
  | plain (t : Line) (n : Nat) (h : UIntText t n) : IntText t n
  | minus (t : Line) (n : Nat) (h : UIntText t n) : IntText (0x2D#8 :: t) (-(n : Int))

/-- `REG = "$" INT` with its index, valid or not (R74). -/
inductive RegText : Line → Int → Prop where
  | intro (t : Line) (r : Int) (h : IntText t r) : RegText (0x24#8 :: t) r

/-- The operand texts of R75 and the Instruction each stands for, fields placed by R67: `,` is 0x2C, `(` is 0x28,
`)` is 0x29. An `IMM` is an `INT` in the range of `i32`, an `ADDR` a `UINT` in the range of `u32`. -/
inductive OperandText : Line → Instr → Prop where
  | add (f0 f1 f2 : Line) (rd rs rt : Int) (h0 : RegText f0 rd) (h1 : RegText f1 rs) (h2 : RegText f2 rt) :
      OperandText (f0 ++ 0x2C#8 :: (f1 ++ 0x2C#8 :: f2)) (.add rd rs rt)
  | sub (f0 f1 f2 : Line) (rd rs rt : Int) (h0 : RegText f0 rd) (h1 : RegText f1 rs) (h2 : RegText f2 rt) :
      OperandText (f0 ++ 0x2C#8 :: (f1 ++ 0x2C#8 :: f2)) (.sub rd rs rt)
  | and (f0 f1 f2 : Line) (rd rs rt : Int) (h0 : RegText f0 rd) (h1 : RegText f1 rs) (h2 : RegText f2 rt) :
      OperandText (f0 ++ 0x2C#8 :: (f1 ++ 0x2C#8 :: f2)) (.and rd rs rt)
  | or (f0 f1 f2 : Line) (rd rs rt : Int) (h0 : RegText f0 rd) (h1 : RegText f1 rs) (h2 : RegText f2 rt) :
      OperandText (f0 ++ 0x2C#8 :: (f1 ++ 0x2C#8 :: f2)) (.or rd rs rt)
  | slt (f0 f1 f2 : Line) (rd rs rt : Int) (h0 : RegText f0 rd) (h1 : RegText f1 rs) (h2 : RegText f2 rt) :
      OperandText (f0 ++ 0x2C#8 :: (f1 ++ 0x2C#8 :: f2)) (.slt rd rs rt)
  | jr (f0 : Line) (rs : Int) (h0 : RegText f0 rs) : OperandText f0 (.jr 0 rs 0)
  | addi (f0 f1 f2 : Line) (rt rs : Int) (imm : Word)
      (h0 : RegText f0 rt) (h1 : RegText f1 rs) (h2 : IntText f2 imm.toInt) :
      OperandText (f0 ++ 0x2C#8 :: (f1 ++ 0x2C#8 :: f2)) (.addi rs rt imm)
  | beq (f0 f1 f2 : Line) (rt rs : Int) (imm : Word)
      (h0 : RegText f0 rt) (h1 : RegText f1 rs) (h2 : IntText f2 imm.toInt) :
      OperandText (f0 ++ 0x2C#8 :: (f1 ++ 0x2C#8 :: f2)) (.beq rs rt imm)
  | lw (f0 f1 f2 : Line) (rt rs : Int) (imm : Word)
      (h0 : RegText f0 rt) (h1 : IntText f1 imm.toInt) (h2 : RegText f2 rs) :
      OperandText (f0 ++ 0x2C#8 :: (f1 ++ 0x28#8 :: (f2 ++ [0x29#8]))) (.lw rs rt imm)
  | sw (f0 f1 f2 : Line) (rt rs : Int) (imm : Word)
      (h0 : RegText f0 rt) (h1 : IntText f1 imm.toInt) (h2 : RegText f2 rs) :
      OperandText (f0 ++ 0x2C#8 :: (f1 ++ 0x28#8 :: (f2 ++ [0x29#8]))) (.sw rs rt imm)
  | j (f0 : Line) (address : Word) (h0 : UIntText f0 address.toNat) : OperandText f0 (.j address)
  | jal (f0 : Line) (address : Word) (h0 : UIntText f0 address.toNat) : OperandText f0 (.jal address)

/-- A well-formed line and the Instruction it stands for (R75): mnemonic, whitespace run, operands, nothing before and
nothing after, every register index valid, at most 99 characters. -/
def WellFormedLine (line : Line) (i : Instr) : Prop :=
  line.length ≤ Config.maxLine ∧ i.wellFormed = true ∧
  ∃ ws ops : Line, ws ≠ [] ∧ (∀ c ∈ ws, IsSpace c) ∧ OperandText ops i ∧ line = i.op.mnemonic ++ (ws ++ ops)

end Sys2Proof
end

