-- ==== Sys2Proof/Decode.lean ====
section
/-! DEFINITION. Sys2Proof/Decode.lean: the Decoder (spec/40_decoder.md R90 to R105), total on any characters, and
after it the encoder of lines; then the machine words of the opcode table (spec/30_encoding.md R68, R70), their decoder
and encoder, which the block itself does not have (log 6). -/

namespace Sys2Proof

/-! ## Integers, registers and fields of a line -/

/-- WS: space or tab (R72, D8, log 16). -/
def isSpace (c : Chr) : Bool := c == 0x20#8 || c == 0x09#8

/-- DIGIT: 0x30 to 0x39 (R73). -/
def isDigit (c : Chr) : Bool := decide (0x30 ≤ c.toNat) && decide (c.toNat ≤ 0x39)

/-- The value of a digit character (R73). -/
def digitValue (c : Chr) : Nat := c.toNat - 0x30

/-- The value of a string of decimal digits, most significant first (R73). -/
def decimal (s : Line) : Nat := s.foldl (fun acc c => 10 * acc + digitValue c) 0

/-- `UINT` (R73): one or more digits. -/
def parseUInt (s : Line) : Option Nat :=
  if s ≠ [] ∧ s.all isDigit then some (decimal s) else none

/-- `INT` (R73, D10, log 16): an optional `-`, then a `UINT`. -/
def parseInt : Line → Option Int
  | [] => none
  | c :: t =>
    if c = 0x2D#8 then (parseUInt t).map fun n : Nat => -(n : Int)
    else (parseUInt (c :: t)).map fun n : Nat => (n : Int)

/-- `reg(s)` (R96): the shape `$<integer>` first, then the range. -/
def parseReg : Line → Except DecodeError Int
  | [] => .error .parameterError
  | c :: t =>
    if c = 0x24#8 then
      match parseInt t with
      | none => .error .parameterError
      | some r => if ValidReg r then .ok r else .error .registerError
    else .error .parameterError

/-- `imm(s)` (R99): an `INT` in the range of `i32`, with no 16-bit test (R71, log 18). -/
def parseImm (s : Line) : Except DecodeError Word :=
  match parseInt s with
  | none => .error .parameterError
  | some v =>
    if Config.intMin ≤ v ∧ v ≤ Config.intMax then .ok (wrap32 v) else .error .parameterError

/-- A jump address (R101): a `UINT` in the range of `u32`. -/
def parseAddr (s : Line) : Except DecodeError Word :=
  match parseUInt s with
  | none => .error .parameterError
  | some v => if v ≤ 4294967295 then .ok (BitVec.ofNat 32 v) else .error .parameterError

/-- Cut at every `,` (R95): k commas give k + 1 fields, any of which may be empty. -/
def splitCommas : Line → List Line
  | [] => [[]]
  | c :: t =>
    if c = 0x2C#8 then [] :: splitCommas t
    else
      match splitCommas t with
      | [] => [[c]]
      | f :: fs => (c :: f) :: fs

/-- Cut at the first `d`: what stands before it and what stands after it, or nothing if there is none (R100). -/
def cutAt (d : Chr) : Line → Option (Line × Line)
  | [] => none
  | c :: t => if c = d then some ([], t) else (cutAt d t).map fun p => (c :: p.1, p.2)

/-- Step 1, split (R93): the mnemonic token before the first whitespace run and everything after that run. -/
def splitWs (line : Line) : Except DecodeError (Line × Line) :=
  let mnem := line.takeWhile fun c => !isSpace c
  let ops := (line.dropWhile fun c => !isSpace c).dropWhile isSpace
  if mnem = [] ∨ ops = [] then .error .parameterError else .ok (mnem, ops)

/-! ## The operand parsers -/

/-- R97: `$rd,$rs,$rt`, the comma count before the fields, the fields left to right. -/
def threeRegs (mk : Int → Int → Int → Instr) (ops : Line) : DecodeResult :=
  match splitCommas ops with
  | [f0, f1, f2] => do
    let rd ← parseReg f0
    let rs ← parseReg f1
    let rt ← parseReg f2
    .ok (mk rd rs rt)
  | _ => .error .parameterError

/-- R98: the whole operand string is one register; `rd` and `rt` are 0 (R66). -/
def oneReg (ops : Line) : DecodeResult := do
  let rs ← parseReg ops
  .ok (.jr 0 rs 0)

/-- R99: `$rt,$rs,imm`. The first register of the text is `rt`, for `beq` too (R67). -/
def twoRegsImm (mk : Int → Int → Word → Instr) (ops : Line) : DecodeResult :=
  match splitCommas ops with
  | [f0, f1, f2] => do
    let rt ← parseReg f0
    let rs ← parseReg f1
    let imm ← parseImm f2
    .ok (mk rs rt imm)
  | _ => .error .parameterError

/-- The three delimiters of R100 and the empty tail, looked for before any field is: the texts of `rt`, of the
immediate and of `rs`. -/
def memFields (ops : Line) : Option (Line × Line × Line) :=
  match cutAt 0x2C#8 ops with
  | none => none
  | some (a, u) =>
    match cutAt 0x28#8 u with
    | none => none
    | some (b, w) =>
      match cutAt 0x29#8 w with
      | none => none
      | some (d, tail) => if tail = [] then some (a, b, d) else none

/-- R100: `$rt,imm($rs)`. -/
def memForm (mk : Int → Int → Word → Instr) (ops : Line) : DecodeResult :=
  match memFields ops with
  | none => .error .parameterError
  | some (a, b, d) => do
    let rt ← parseReg a
    let imm ← parseImm b
    let rs ← parseReg d
    .ok (mk rs rt imm)

/-- R101: one unsigned integer. -/
def jumpForm (mk : Word → Instr) (ops : Line) : DecodeResult := do
  let address ← parseAddr ops
  .ok (mk address)

/-- Step 2, format classification (R94): the operand parser each operation selects. -/
def parseOperands : Op → Line → DecodeResult
  | .add => threeRegs .add
  | .sub => threeRegs .sub
  | .and => threeRegs .and
  | .or => threeRegs .or
  | .slt => threeRegs .slt
  | .jr => oneReg
  | .addi => twoRegsImm .addi
  | .beq => twoRegsImm .beq
  | .lw => memForm .lw
  | .sw => memForm .sw
  | .j => jumpForm .j
  | .jal => jumpForm .jal

/-- The operation of a mnemonic, exact and case-sensitive (R76, R94). -/
def opOfMnemonic (mnem : Line) : Option Op := Op.all.find? fun o => o.mnemonic == mnem

/-- `decode(line)` in one piece (R105): the length guard (R92, log 15), the split (R93), the mnemonic (R94), then the
operands. The first failing check gives the error (R103). -/
def decodeLine (line : Line) : DecodeResult :=
  if Config.maxLine < line.length then .error .parameterError
  else
    match splitWs line with
    | .error e => .error e
    | .ok (mnem, ops) =>
      match opOfMnemonic mnem with
      | none => .error .parameterError
      | some o => parseOperands o ops

/-! ## The encoder of lines -/

/-- The last `fuel` decimal digits of `n`, without leading zeros while they last. -/
def natDigits : Nat → Nat → Line
  | 0, _ => []
  | fuel + 1, n =>
    if n < 10 then [BitVec.ofNat 8 (0x30 + n)]
    else natDigits fuel (n / 10) ++ [BitVec.ofNat 8 (0x30 + n % 10)]

/-- The decimal text of a number below 10^10, so of every `u32` and of the size of every `i32`. -/
def natText (n : Nat) : Line := natDigits 10 n

/-- The decimal text of an integer. -/
def intText (v : Int) : Line := if v < 0 then 0x2D#8 :: natText v.natAbs else natText v.natAbs

/-- The text of a register field. -/
def regText (r : Int) : Line := 0x24#8 :: intText r

/-- The operand text of an Instruction (R67, column "operand syntax"). -/
def operandText : Instr → Line
  | .add rd rs rt | .sub rd rs rt | .and rd rs rt | .or rd rs rt | .slt rd rs rt =>
      regText rd ++ 0x2C#8 :: (regText rs ++ 0x2C#8 :: regText rt)
  | .jr _ rs _ => regText rs
  | .addi rs rt imm | .beq rs rt imm => regText rt ++ 0x2C#8 :: (regText rs ++ 0x2C#8 :: intText imm.toInt)
  | .lw rs rt imm | .sw rs rt imm => regText rt ++ 0x2C#8 :: (intText imm.toInt ++ 0x28#8 :: (regText rs ++ [0x29#8]))
  | .j address | .jal address => natText address.toNat

/-- The line of an Instruction: its mnemonic, one space, its operands (R67; one of the lines that decode to it, log 26). -/
def encodeLine (i : Instr) : Line := i.op.mnemonic ++ 0x20#8 :: operandText i

/-! ## Numeric codes and machine words

The code values are the document's (R68); the layout of the fields is R70's, from general knowledge (log 6). -/

/-- The opcode of an operation (R68). -/
def Op.opcode : Op → BitVec 6
  | .add | .sub | .and | .or | .slt | .jr => 0x00#6
  | .addi => 0x08#6
  | .lw => 0x23#6
  | .sw => 0x2B#6
  | .beq => 0x04#6
  | .j => 0x02#6
  | .jal => 0x03#6

/-- The function code of an R-format operation (R68). -/
def Op.function : Op → Option (BitVec 6)
  | .add => some 0x20#6
  | .sub => some 0x22#6
  | .and => some 0x24#6
  | .or => some 0x25#6
  | .slt => some 0x2A#6
  | .jr => some 0x08#6
  | .addi | .beq | .lw | .sw | .j | .jal => none

/-- A row of spec/opcode_table.json: a word is the row's when its bits under `mask` are `pattern`. -/
structure WordRow where
  op : Op
  pattern : Word
  mask : Word
deriving DecidableEq, Repr

/-- The rows of spec/opcode_table.json, "match" and "mask" as the table prints them. -/
def wordRows : List WordRow :=
  [⟨.add, 0x00000020#32, 0xFC0007FF#32⟩, ⟨.sub, 0x00000022#32, 0xFC0007FF#32⟩, ⟨.and, 0x00000024#32, 0xFC0007FF#32⟩,
   ⟨.or, 0x00000025#32, 0xFC0007FF#32⟩, ⟨.slt, 0x0000002A#32, 0xFC0007FF#32⟩, ⟨.jr, 0x00000008#32, 0xFC1FFFFF#32⟩,
   ⟨.addi, 0x20000000#32, 0xFC000000#32⟩, ⟨.beq, 0x10000000#32, 0xFC000000#32⟩, ⟨.lw, 0x8C000000#32, 0xFC000000#32⟩,
   ⟨.sw, 0xAC000000#32, 0xFC000000#32⟩, ⟨.j, 0x08000000#32, 0xFC000000#32⟩, ⟨.jal, 0x0C000000#32, 0xFC000000#32⟩]

/-- Why a word is no instruction of the table (the spec gives such a word no meaning, N2). -/
inductive WordReject where
  /-- Its opcode is none of R68's. -/
  | unlistedOpcode
  /-- Its opcode is 0 and its function code is none of R68's. -/
  | unlistedFunction
  /-- A field the layout fixes at 0 is not 0: bits 10:6, and bits 20:6 of JR. -/
  | nonzeroField
deriving DecidableEq, Repr

/-- The register number in the five bits of `w` from bit `lo` up. -/
def regField (w : Word) (lo : Nat) : Int := ((w.extractLsb' lo 5).toNat : Int)

/-- The immediate of an I-format word, `sext_16` of bits 15:0 (R70). -/
def immField (w : Word) : Word := (w.extractLsb' 0 16).signExtend 32

/-- The address of a J-format word, bits 25:0 (R70). -/
def addrField (w : Word) : Word := (w.extractLsb' 0 26).setWidth 32

/-- A three-register word: rs 25:21, rt 20:16, rd 15:11, and bits 10:6 zero (R70). -/
def decodeWordR (mk : Int → Int → Int → Instr) (w : Word) : Except WordReject Instr :=
  if w.extractLsb' 6 5 = 0#5 then .ok (mk (regField w 11) (regField w 21) (regField w 16)) else .error .nonzeroField

/-- A `jr` word: rs 25:21 and bits 20:6 zero (R66, R70). -/
def decodeWordJr (w : Word) : Except WordReject Instr :=
  if w.extractLsb' 6 15 = 0#15 then .ok (.jr 0 (regField w 21) 0) else .error .nonzeroField

/-- The word decoder: the opcode in bits 31:26, the function code in bits 5:0 (R70). -/
def decodeWord (w : Word) : Except WordReject Instr :=
  match (w.extractLsb' 26 6).toNat with
  | 0x00 =>
    match (w.extractLsb' 0 6).toNat with
    | 0x20 => decodeWordR .add w
    | 0x22 => decodeWordR .sub w
    | 0x24 => decodeWordR .and w
    | 0x25 => decodeWordR .or w
    | 0x2A => decodeWordR .slt w
    | 0x08 => decodeWordJr w
    | _ => .error .unlistedFunction
  | 0x08 => .ok (.addi (regField w 21) (regField w 16) (immField w))
  | 0x04 => .ok (.beq (regField w 21) (regField w 16) (immField w))
  | 0x23 => .ok (.lw (regField w 21) (regField w 16) (immField w))
  | 0x2B => .ok (.sw (regField w 21) (regField w 16) (immField w))
  | 0x02 => .ok (.j (addrField w))
  | 0x03 => .ok (.jal (addrField w))
  | _ => .error .unlistedOpcode

/-- Five bits of a register number. -/
def regBits (r : Int) : BitVec 5 := BitVec.ofInt 5 r

/-- R format: opcode 0, rs, rt, rd, zero, function code (R70). -/
def wordR (rs rt rd : Int) (function : BitVec 6) : Word :=
  (0x00#6 ++ regBits rs ++ regBits rt ++ regBits rd ++ 0#5 ++ function : BitVec 32)

/-- I format: opcode, rs, rt, immediate[15:0] (R70). -/
def wordI (opcode : BitVec 6) (rs rt : Int) (imm : Word) : Word :=
  (opcode ++ regBits rs ++ regBits rt ++ imm.extractLsb' 0 16 : BitVec 32)

/-- J format: opcode, address[25:0] (R70). -/
def wordJ (opcode : BitVec 6) (address : Word) : Word :=
  (opcode ++ address.extractLsb' 0 26 : BitVec 32)

/-- The bits of each form, whether or not the operands fit. -/
def packWord : Instr → Word
  | .add rd rs rt => wordR rs rt rd 0x20#6
  | .sub rd rs rt => wordR rs rt rd 0x22#6
  | .and rd rs rt => wordR rs rt rd 0x24#6
  | .or rd rs rt => wordR rs rt rd 0x25#6
  | .slt rd rs rt => wordR rs rt rd 0x2A#6
  | .jr _ rs _ => wordR rs 0 0 0x08#6
  | .addi rs rt imm => wordI 0x08#6 rs rt imm
  | .beq rs rt imm => wordI 0x04#6 rs rt imm
  | .lw rs rt imm => wordI 0x23#6 rs rt imm
  | .sw rs rt imm => wordI 0x2B#6 rs rt imm
  | .j address => wordJ 0x02#6 address
  | .jal address => wordJ 0x03#6 address

/-- The machine word of an Instruction, where one exists: "some Instructions have no machine word" (R70). -/
def encode (i : Instr) : Option Word := if i.hasWord then some (packWord i) else none

/-! ## The host's numbering of an instruction's bits -/

/-- The instruction the word decoder reads from bits numbered as spec/opcode_table.json numbers them: every row is one
32-bit word. The block stores no instruction, so there is no byte order to lay the word out in (R41, R46, log 6). -/
def decodeTableWord (nbits w : Nat) : Option Instr :=
  if nbits ≤ 32 then (decodeWord (BitVec.ofNat 32 (w % 2 ^ nbits))).toOption else none

/-- The line that stands for a machine word: the line of its instruction, or the empty line, which does not decode,
where the word is no instruction (log 5). -/
def lineOfTableWord (nbits w : Nat) : Line :=
  match decodeTableWord nbits w with
  | some i => encodeLine i
  | none => []

end Sys2Proof
end

