-- ==== Sys2Proof/Machine/State.lean ====
section
/-! DEFINITION. Sys2Proof/Machine/State.lean: the Machine State (spec/10_state.md R20 to R33) with the block's
interface seen as plain data: the calls the caller has made and the value the last one returned (spec/00_scope.md R7,
R14). -/

namespace Sys2Proof.Machine

/-- The data memory (R28, R40): (word index, word) pairs in one canonical form, `Memory.wf`. An unlisted word reads 0,
its reset value (R33). Words are whole: the spec forbids a byte view (R46, log 10). -/
abbrev Memory := List (Nat × Word)

/-- The canonical form from index `lo` up: indices strictly rising and below 1024, no listed word 0. -/
def Memory.wfFrom (lo : Nat) : Memory → Bool
  | [] => true
  | (a, v) :: m => decide (lo ≤ a) && decide (a < Config.memWords) && decide (v ≠ 0#32) && Memory.wfFrom (a + 1) m

/-- The canonical form of a memory: equal memories are equal lists. -/
def Memory.wf (m : Memory) : Bool := m.wfFrom 0

/-- A call of the caller (R7, R4; log 2). -/
inductive Call where
  /-- The fixed sequence of R4: decode the line and, if that succeeds, execute the Instruction. -/
  | submit (line : Line)
  /-- `decode` alone (R7, R90). -/
  | decode (line : Line)
  /-- `execute` on an Instruction, made by the Decoder or not (R7, U7). -/
  | execute (instr : Instr)
  /-- The creation or reset of Machine State (R200, D25). -/
  | reset
deriving DecidableEq, Repr

/-- The value a call returned (R14). -/
inductive CallResult where
  /-- What `decode` returned, where nothing was executed. -/
  | decoded (d : DecodeResult)
  /-- What `execute` returned. -/
  | executed (e : ExecResult)
deriving DecidableEq, Repr

/-- The state of the machine. `regs`, `pc` and `mem` are the spec's Machine State, "exactly three components and nothing
else" (R20); `calls` and `result` are the model's own, the block's interface as data (log 2, log 3). -/
structure State where
  /-- Registers 1 to 31: register `k` is entry `k - 1`. Register 0 has no storage (R21, R22, log 7). -/
  regs : Vector Word 31
  /-- The program counter, an unsigned byte address (R25). -/
  pc : Word
  /-- The data memory (R28). -/
  mem : Memory
  /-- The calls not served yet, oldest first (log 2). -/
  calls : List Call
  /-- The value the last served call returned, none before the first (log 3). -/
  result : Option CallResult
deriving DecidableEq, Repr

/-- The reasons to stop with a fault: there are none. "The hardware has no exception/interrupt model. Nothing in it
traps" (R175); `execute` is total (R120), and an error is a returned value after which the caller goes on (R184, R185).
Nobody raises a fault, so this is safe and exact (log 1). -/
inductive Fault
deriving DecidableEq, Repr

/-- The reasons to refuse. -/
inductive Refusal where
  /-- Raised by an arm of `exec` whose instruction has no meaning yet: no arm is left, so nobody raises it (safe). -/
  | notModelled (mnemonic : String)
deriving DecidableEq, Repr

/-- Reset, the creation of Machine State: every register and memory word 0, pc 0 (R33, R200). No call waits and none
has returned (log 2, log 3). -/
def State.reset : State :=
  { regs := Vector.replicate 31 0#32, pc := 0#32, mem := [], calls := [], result := none }

end Sys2Proof.Machine
end

