-- ==== Sys2Proof/Machine/Flags.lean ====
section
/-! DEFINITION. Sys2Proof/Machine/Flags.lean: the block has no flags (spec/10_state.md R29); the one condition an
arithmetic instruction computes is signed overflow, reported only as a result (spec/42_alu.md R136). -/

namespace Sys2Proof.Machine

/-- `Overflow`: the exact sum or difference `m` is outside [INT_MIN, INT_MAX] (R136). -/
abbrev Overflow (m : Int) : Prop := Config.intMax < m ∨ m < Config.intMin

/-- The document's form of the test for addition, which needs no wider arithmetic (R136). -/
def addOverflowTest (a b : Int) : Prop :=
  (0 < a ∧ Config.intMax - a < b) ∨ (a < 0 ∧ b < Config.intMin - a)

/-- The mirror of it the spec takes for subtraction (R136, D15, log 21). -/
def subOverflowTest (a b : Int) : Prop :=
  (b < 0 ∧ Config.intMax + b < a) ∨ (0 < b ∧ a < Config.intMin + b)

end Sys2Proof.Machine
end

