-- ==== Sys2Proof/Machine/Operands.lean ====
section
/-! DEFINITION. Sys2Proof/Machine/Operands.lean: the operand forms of the twelve instructions: register fields
(spec/41_executor_common.md R123), the word index of LW and SW (spec/43_load_store.md R150), and the targets of the
control transfers (spec/44_control_transfer.md R160), with the predicates of spec/20_memory.md R42, R43. All arithmetic is
over the integers, with no wrap before a test (R9, D16, D17, log 14). -/

namespace Sys2Proof.Machine

/-- The register a field names, if it passes `ValidReg` (R65, R123). -/
def regOf (r : Int) : Option Reg := if h : ValidReg r then some ⟨r.toNat, by omega⟩ else none

/-- `ValidMemAddr(a)`: 0 <= a <= 1023 (R42). -/
abbrev ValidMemAddr (a : Int) : Prop := 0 ≤ a ∧ a ≤ 1023

/-- The memory word an address names, if it passes `ValidMemAddr` (R42, R150). -/
def memIndexOf (a : Int) : Option MemIndex := if h : ValidMemAddr a then some ⟨a.toNat, by omega⟩ else none

/-- `ValidTarget(t)`: 0 <= t < 4096 and t a multiple of 4 (R43, log 13). -/
abbrev ValidTarget (t : Int) : Prop := 0 ≤ t ∧ t < Config.pcLimit ∧ t % 4 = 0

/-- The effective address of LW and SW, a word index: x[rs] + immediate, exact and unscaled (R40, R150). -/
def effectiveAddress (base immediate : Word) : Int := base.toInt + immediate.toInt

/-- The target of JR: the signed register value as it is (R161). -/
def registerTarget (value : Word) : Int := value.toInt

/-- The target of a taken BEQ: current pc + 4 * immediate, not pc + 4 based (R163, R164). -/
def branchTarget (pc immediate : Word) : Int := (pc.toNat : Int) + 4 * immediate.toInt

/-- The target of J and JAL: 4 * address, absolute (R165, R167). -/
def jumpTarget (address : Word) : Int := 4 * (address.toNat : Int)

end Sys2Proof.Machine
end

