-- ==== Sys2Proof/Machine/Ops.lean ====
section
/-! DEFINITION. Sys2Proof/Machine/Ops.lean: the named operations over registers, memory, pc and result that the
instructions share (spec/00_scope.md R11, spec/41_executor_common.md R121 to R130). -/

namespace Sys2Proof.Machine

/-! ## Memory -/

/-- `MemRead(a, 4)`: the word at index `a`, 0 if none is listed; a read changes nothing (R11, R33, R45). -/
def Memory.read : Memory → Nat → Word
  | [], _ => 0#32
  | (b, u) :: m, a => if a = b then u else Memory.read m a

/-- `MemWrite(a, 4, v)`: changes exactly the word at index `a` (R11, R45) and keeps the canonical form: the value 0, which
an unlisted word reads as, removes the entry. -/
def Memory.write : Memory → Nat → Word → Memory
  | [], a, v => if v = 0#32 then [] else [(a, v)]
  | (b, u) :: m, a, v =>
    if a < b then if v = 0#32 then (b, u) :: m else (a, v) :: (b, u) :: m
    else if a = b then if v = 0#32 then m else (a, v) :: m
    else (b, u) :: Memory.write m a v

namespace State

/-! ## Access to the state -/

/-- `x[i]` and the accessor `register(i)`: register 0 always reads 0 (R11, R22, R34). -/
def register (s : State) (i : Reg) : Word := if h : i.val = 0 then 0#32 else s.regs[i.val - 1]'(by omega)

/-- `x[i] <- v`: for register 0 it does nothing (R11, R22). -/
def setRegister (s : State) (i : Reg) (v : Word) : State :=
  if h : i.val = 0 then s else { s with regs := s.regs.set (i.val - 1) v (by omega) }

/-- The accessor `memory(a)` and the read of LW (R11, R34). -/
def memory (s : State) (a : MemIndex) : Word := s.mem.read a.val

/-- The write of SW (R11). -/
def storeWord (s : State) (a : MemIndex) (v : Word) : State := { s with mem := s.mem.write a.val v }

/-- `pc <- t` (R11). -/
def setPc (s : State) (t : Word) : State := { s with pc := t }

/-- `pc <- wrap32u(pc + k)`, not range-checked (R126, R128, log 12). -/
def advanceBy (s : State) (k : Nat) : State := s.setPc (wrap32 ((s.pc.toNat : Int) + k))

/-! ## Returning from a call

"Trap entry is the return of the call" (R184): an error is one shared operation that records the returned kind and
touches nothing else. No vector, saved pc, status or mode exists, and there is no trap return (R175, R185). -/

/-- Set the value a call returns to its caller. -/
def returnValue (s : State) (r : CallResult) : State := { s with result := some r }

/-- `return Ok` (R11, R130). -/
def returnOk (s : State) : State := s.returnValue (.executed (.ok ()))

/-- `return Err(e)`: the typed error is the result; pc, registers and memory stay as they are (R129, R184, log 1). -/
def returnErr (s : State) (e : ExecError) : State := s.returnValue (.executed (.error e))

end State

/-- OVERFLOW_PC_STEP: what `execute` adds to pc when it returns OverflowError (R128, C1, D4, log 8). -/
def overflowPcStep : Nat := 4

namespace State

/-! ## The ends of a step (R121, phases 3 to 6) -/

/-- Write a destination register, advance by the instruction size, return Ok (R126, R130). -/
def writeBack (s : State) (d : Reg) (v : Word) : State :=
  ((s.setRegister d v).advanceBy Config.isize).returnOk

/-- The end of ADD, SUB and ADDI: on overflow of the exact result `m` only pc moves and the error is OverflowError,
whatever the destination is (R128, R136, D27); else `m` is written (R137, R138, R142). -/
def checkedWriteBack (s : State) (d : Reg) (m : Int) : State :=
  if Overflow m then (s.advanceBy overflowPcStep).returnErr .overflowError else s.writeBack d (wrap32 m)

/-- Perform `access` on the memory word the address names, or return MemoryError with nothing changed (R150). -/
def withMemIndex (s : State) (address : Int) (access : MemIndex → State) : State :=
  match memIndexOf address with
  | some a => access a
  | none => s.returnErr .memoryError

/-- The end of a control transfer: `commit`, then pc is the target exactly, with no +4 on top, if it passes
`ValidTarget`; else MemoryError with nothing changed (R127, R160). -/
def transfer (s : State) (t : Int) (commit : State → State) : State :=
  if ValidTarget t then ((commit s).setPc (wrap32 t)).returnOk else s.returnErr .memoryError

end State

/-! ## The register check (R121 phase 1, R123), before everything else

A meaningful field that fails `ValidReg` ends the step with RegisterError and changes nothing. -/

/-- One meaningful register field (JR). -/
def withReg (r : Int) (s : State) (body : Reg → State) : Host.Outcome State Fault Refusal :=
  match regOf r with
  | some a => .next (body a)
  | none => .next (s.returnErr .registerError)

/-- Two meaningful register fields (the I formats). -/
def withRegs2 (rs rt : Int) (s : State) (body : Reg → Reg → State) : Host.Outcome State Fault Refusal :=
  match regOf rs, regOf rt with
  | some a, some b => .next (body a b)
  | _, _ => .next (s.returnErr .registerError)

/-- Three meaningful register fields (the three-register forms). -/
def withRegs3 (rd rs rt : Int) (s : State) (body : Reg → Reg → Reg → State) : Host.Outcome State Fault Refusal :=
  match regOf rd, regOf rs, regOf rt with
  | some d, some a, some b => .next (body d a b)
  | _, _, _ => .next (s.returnErr .registerError)

end Sys2Proof.Machine
end

