-- ==== Sys2Proof/Machine/Alu.lean ====
section
/-! DEFINITION. Sys2Proof/Machine/Alu.lean: ADD, SUB, AND, OR, SLT, ADDI (spec/42_alu.md R137 to R142). Sources are read
before the destination is written (R122), since the written value is computed from the state before. -/

namespace Sys2Proof.Machine

/-- ADD (R137): the exact signed sum, checked. -/
def execAdd (rd rs rt : Int) (s : State) : Host.Outcome State Fault Refusal :=
  withRegs3 rd rs rt s fun d a b => s.checkedWriteBack d ((s.register a).toInt + (s.register b).toInt)

/-- SUB (R138): the exact signed difference, first source minus second, checked. -/
def execSub (rd rs rt : Int) (s : State) : Host.Outcome State Fault Refusal :=
  withRegs3 rd rs rt s fun d a b => s.checkedWriteBack d ((s.register a).toInt - (s.register b).toInt)

/-- AND (R139): bit by bit. -/
def execAnd (rd rs rt : Int) (s : State) : Host.Outcome State Fault Refusal :=
  withRegs3 rd rs rt s fun d a b => s.writeBack d (s.register a &&& s.register b)

/-- OR (R140): bit by bit. -/
def execOr (rd rs rt : Int) (s : State) : Host.Outcome State Fault Refusal :=
  withRegs3 rd rs rt s fun d a b => s.writeBack d (s.register a ||| s.register b)

/-- SLT (R141): the signed comparison of the two values. -/
def execSlt (rd rs rt : Int) (s : State) : Host.Outcome State Fault Refusal :=
  withRegs3 rd rs rt s fun d a b =>
    s.writeBack d (if (s.register a).toInt < (s.register b).toInt then 1#32 else 0#32)

/-- ADDI (R142): the exact signed sum of x[rs] and the full immediate, checked; the destination is `rt`. -/
def execAddi (rs rt : Int) (immediate : Word) (s : State) : Host.Outcome State Fault Refusal :=
  withRegs2 rs rt s fun a d => s.checkedWriteBack d ((s.register a).toInt + immediate.toInt)

end Sys2Proof.Machine
end

