-- ==== Sys2Proof/Machine/ControlTransfer.lean ====
section
/-! DEFINITION. Sys2Proof/Machine/ControlTransfer.lean: JR, BEQ, J, JAL (spec/44_control_transfer.md R160 to R167).
There is no delay slot (R127, R204). -/

namespace Sys2Proof.Machine

/-- JR (R161): only `rs` is meaningful; `rd` and `rt` are neither tested nor read (D26, log 20). -/
def execJr (_rd rs _rt : Int) (s : State) : Host.Outcome State Fault Refusal :=
  withReg rs s fun a => s.transfer (registerTarget (s.register a)) id

/-- BEQ (R163, R164): taken, the target is counted from the current pc; not taken, the target is not tested (D28). -/
def execBeq (rs rt : Int) (immediate : Word) (s : State) : Host.Outcome State Fault Refusal :=
  withRegs2 rs rt s fun a b =>
    if s.register a = s.register b then s.transfer (branchTarget s.pc immediate) id
    else (s.advanceBy Config.isize).returnOk

/-- J (R165). -/
def execJ (address : Word) (s : State) : Host.Outcome State Fault Refusal :=
  .next (s.transfer (jumpTarget address) id)

/-- JAL (R167): the link, current pc + 4, is written only if the target passes, and before pc (D24, log 23). -/
def execJal (address : Word) (s : State) : Host.Outcome State Fault Refusal :=
  .next (s.transfer (jumpTarget address) fun u => u.setRegister Config.linkReg (wrap32 ((s.pc.toNat : Int) + 4)))

end Sys2Proof.Machine
end

