-- ==== Sys2Proof/Machine/LoadStore.lean ====
section
/-! DEFINITION. Sys2Proof/Machine/LoadStore.lean: LW and SW (spec/43_load_store.md R150 to R152). -/

namespace Sys2Proof.Machine

/-- LW (R151): the address test comes first, for rt = 0 too; the base is read before the write. -/
def execLw (rs rt : Int) (immediate : Word) (s : State) : Host.Outcome State Fault Refusal :=
  withRegs2 rs rt s fun b d =>
    s.withMemIndex (effectiveAddress (s.register b) immediate) fun ea => s.writeBack d (s.memory ea)

/-- SW (R152): the whole word is stored and no register is written. -/
def execSw (rs rt : Int) (immediate : Word) (s : State) : Host.Outcome State Fault Refusal :=
  withRegs2 rs rt s fun b v =>
    s.withMemIndex (effectiveAddress (s.register b) immediate) fun ea =>
      ((s.storeWord ea (s.register v)).advanceBy Config.isize).returnOk

end Sys2Proof.Machine
end

