-- ==== Sys2Proof/Machine/Dispatch.lean ====
section
/-! DEFINITION. Sys2Proof/Machine/Dispatch.lean: `execute`, one arm per operation and no default arm
(spec/41_executor_common.md R124). -/

namespace Sys2Proof.Machine

def exec (i : Instr) (s : State) : Host.Outcome State Fault Refusal :=
  match i with
  | .add rd rs rt => Sys2Proof.Machine.execAdd rd rs rt s
  | .sub rd rs rt => Sys2Proof.Machine.execSub rd rs rt s
  | .and rd rs rt => Sys2Proof.Machine.execAnd rd rs rt s
  | .or rd rs rt => Sys2Proof.Machine.execOr rd rs rt s
  | .slt rd rs rt => Sys2Proof.Machine.execSlt rd rs rt s
  | .jr rd rs rt => Sys2Proof.Machine.execJr rd rs rt s
  | .addi rs rt immediate => Sys2Proof.Machine.execAddi rs rt immediate s
  | .beq rs rt immediate => Sys2Proof.Machine.execBeq rs rt immediate s
  | .lw rs rt immediate => Sys2Proof.Machine.execLw rs rt immediate s
  | .sw rs rt immediate => Sys2Proof.Machine.execSw rs rt immediate s
  | .j address => Sys2Proof.Machine.execJ address s
  | .jal address => Sys2Proof.Machine.execJal address s

end Sys2Proof.Machine
end

