-- ==== Sys2Proof/Machine/Calls.lean ====
section
/-! DEFINITION. Sys2Proof/Machine/Calls.lean: what the block does with one call of its caller (spec/00_scope.md R4, R7;
spec/40_decoder.md R104; spec/70_reset_and_hazards.md R200). -/

namespace Sys2Proof.Machine

/-- Serve one call, already taken from `calls`. A decode, whether it succeeds or fails, leaves Machine State alone (R35,
R104); after a decode error nothing is executed (R104). Reset makes a fresh Machine State and leaves the calls that
still wait (R200, D25, log 22). -/
def serve (c : Call) (s : State) : Host.Outcome State Fault Refusal :=
  match c with
  | .submit line =>
    match decodeLine line with
    | .ok i => exec i s
    | .error e => .next (s.returnValue (.decoded (.error e)))
  | .decode line => .next (s.returnValue (.decoded (decodeLine line)))
  | .execute i => exec i s
  | .reset => .next { State.reset with calls := s.calls }

end Sys2Proof.Machine
end

