-- ==== Sys2Proof/Machine/Step.lean ====
section
/-! DEFINITION. Sys2Proof/Machine/Step.lean: one step of the machine: the oldest waiting call is served, whole
(spec/00_scope.md R8, spec/20_memory.md R50). The block fetches nothing through pc (spec/20_memory.md R41). -/

namespace Sys2Proof.Machine

/-- One step. With no call waiting nothing happens (R186, log 4). -/
def step (s : State) : Host.Outcome State Fault Refusal :=
  match s.calls with
  | [] => .next s
  | c :: rest => serve c { s with calls := rest }

/-- The state with the instruction whose table bits are `w` as the next call: its line is submitted before every call
that waits (log 5). -/
def State.withFetchWord (s : State) (nbits w : Nat) : State :=
  { s with calls := .submit (lineOfTableWord nbits w) :: s.calls }

end Sys2Proof.Machine
end

