-- ==== Sys2Proof/Safety.lean ====
section
/-! DEFINITION. Sys2Proof/Safety.lean: the terms claims are stated in: valid states, the invariant of every step, what a
step leaves alone, and the spec's own tables of reads, writes and errors (spec/10_state.md R23, R27; spec/60_exceptions.md
R180). -/

namespace Sys2Proof

/-- The register fields an instruction reads (R23, column "reads"). -/
def Instr.sources : Instr → List Int
  | .add _ rs rt | .sub _ rs rt | .and _ rs rt | .or _ rs rt | .slt _ rs rt => [rs, rt]
  | .jr _ rs _ => [rs]
  | .addi rs _ _ | .lw rs _ _ => [rs]
  | .beq rs rt _ | .sw rs rt _ => [rs, rt]
  | .j _ | .jal _ => []

/-- The register an instruction writes (R23, column "writes"): the link register for JAL. -/
def Instr.destination : Instr → Option Int
  | .add rd _ _ | .sub rd _ _ | .and rd _ _ | .or rd _ _ | .slt rd _ _ => some rd
  | .addi _ rt _ | .lw _ rt _ => some rt
  | .jr .. | .beq .. | .sw .. | .j _ => none
  | .jal _ => some Config.linkReg.num

/-- The errors `execute` may return for an operation (R180). -/
def Op.errors : Op → List ExecError
  | .add | .sub | .addi => [.registerError, .overflowError]
  | .and | .or | .slt => [.registerError]
  | .lw | .sw | .jr | .beq => [.registerError, .memoryError]
  | .j | .jal => [.memoryError]

namespace Machine

/-- `ValidState(s)`: pc is a multiple of 4 and below 4096 (R27). -/
abbrev State.Valid (s : State) : Prop := s.pc.toNat % 4 = 0 ∧ s.pc.toNat < Config.pcLimit

/-- The invariant every step keeps: the memory is in canonical form, so every listed index exists, and pc is a multiple
of 4. `pc < 4096` is not part of it: the sequential advance is unchecked (R27, C2, log 12). -/
abbrev State.Inv (s : State) : Prop := s.mem.wf = true ∧ s.pc.toNat % 4 = 0

/-- The last call was an `execute` (alone or in a submit) that returned `r`. -/
abbrev State.Returned (s : State) (r : ExecResult) : Prop := s.result = some (.executed r)

/-- Every register reads in `t` as in `s`. -/
def SameRegisters (s t : State) : Prop := ∀ r : Reg, t.register r = s.register r

/-- Register `d` reads `v` in `t`, or 0 if it is register 0, and every other register reads as in `s` (R22). -/
def WritesRegister (s t : State) (d : Reg) (v : Word) : Prop :=
  ∀ r : Reg, t.register r = if r = d ∧ r ≠ 0 then v else s.register r

/-- Every memory word reads in `t` as in `s`. -/
def SameMemory (s t : State) : Prop := ∀ a : MemIndex, t.memory a = s.memory a

/-- The word at index `a` reads `v` in `t` and every other word reads as in `s`. -/
def WritesMemory (s t : State) (a : MemIndex) (v : Word) : Prop :=
  ∀ b : MemIndex, t.memory b = if b = a then v else s.memory b

/-- Machine State, the spec's three components (R20), is the same in both states. -/
def SameMachine (s t : State) : Prop := SameRegisters s t ∧ SameMemory s t ∧ t.pc = s.pc

/-- `execute` on `i` at `s` answers the next state `t` and returns `r` to the caller, and no waiting call is touched. -/
def Executes (i : Instr) (s t : State) (r : ExecResult) : Prop :=
  exec i s = .next t ∧ t.Returned r ∧ t.calls = s.calls

end Machine

end Sys2Proof
end

