-- ==== Sys2Proof/Certificates/Slice0/Obligations.lean ====
section
/-! DEFINITION. Sys2Proof/Certificates/Slice0/Obligations.lean: the statements for the provers. Registers that exist are
written as `Reg` and named in an Instruction by `Reg.num`; a register field out of range has a statement of its own.
The value a call returns is `State.result` (log 3); OVERFLOW_PC_STEP is `overflowPcStep` (R128, log 8). -/

open Sys2Proof Sys2Proof.Machine

/-! ## Reset and invariants -/

/-- R33: every register and every memory word is 0, pc is 0, and the state is valid. -/
def Obligations.ResetIsAllZeroAndValid : Prop :=
  (∀ r : Reg, State.reset.register r = 0#32) ∧ (∀ a : MemIndex, State.reset.memory a = 0#32) ∧
    State.reset.pc = 0#32 ∧ State.reset.Valid

/-- The invariant holds at reset. -/
def Obligations.ResetMeetsInvariant : Prop := State.reset.Inv

/-- Every step from any state that meets the invariant keeps it: canonical memory, aligned pc. It rests on the aligned
JR target the spec decides (D6, log 13). -/
def Obligations.StepKeepsInvariant : Prop :=
  ∀ s t : State, s.Inv → step s = .next t → t.Inv

/-- R120: `execute` is total: every Instruction on every state gets exactly one result and one next state. -/
def Obligations.ExecuteIsTotal : Prop :=
  ∀ (i : Instr) (s : State), ∃ (t : State) (r : ExecResult), Executes i s t r ∧
    ∀ (t' : State) (r' : ExecResult), Executes i s t' r' → t' = t ∧ r' = r

/-- The machine can neither hang nor be stuck (R206): with `k` calls waiting, `k` steps serve them all. The queue of
calls is the model's (log 2). -/
def Obligations.EveryWaitingCallIsServed : Prop :=
  ∀ s : State, ∃ t : State, Host.Core.run Sys2Proof.core s.calls.length s = .next t ∧ t.calls = []

/-- Register 0 is a constant: it reads 0 in every state and a write to it changes nothing (the spec's D2, log 7). -/
def Obligations.RegisterZeroIsConstant : Prop :=
  ∀ (s : State) (v : Word), s.register 0 = 0#32 ∧ s.setRegister 0 v = s

/-- From a valid state an Ok step leaves pc a multiple of 4, and below 4096 if it was a taken transfer or started at
pc <= 4088 (R131 b; the proviso is the spec's resolution of C2, log 12). -/
def Obligations.OkStepKeepsPcValid : Prop :=
  ∀ (i : Instr) (s t : State), s.Valid → Executes i s t (.ok ()) →
    t.pc.toNat % 4 = 0 ∧
    ((i.op = .jr ∨ i.op = .j ∨ i.op = .jal ∨
      (∃ (a b : Reg) (imm : Word), i = .beq a.num b.num imm ∧ s.register a = s.register b) ∨
      s.pc.toNat ≤ 4088) → t.Valid)

/-! ## The step and the calls -/

/-- A step serves the oldest call: a submitted line that decodes to `i` runs `exec i`, an executed Instruction runs
`exec` of it, each on the state with that call taken away; with no call waiting nothing happens (R186). The queue and
the idle step are the model's (log 2, log 4). -/
def Obligations.StepRunsTheDecodedInstruction : Prop :=
  (∀ (s : State) (l : Line) (rest : List Call) (i : Instr), s.calls = .submit l :: rest → decodeLine l = .ok i →
    step s = exec i { s with calls := rest }) ∧
  (∀ (s : State) (rest : List Call) (i : Instr), s.calls = .execute i :: rest →
    step s = exec i { s with calls := rest }) ∧
  (∀ s : State, s.calls = [] → step s = .next s)

/-- R104: after a decode error Machine State is untouched and nothing is executed; after a successful decode alone
nothing has happened to Machine State either. -/
def Obligations.DecodeAloneChangesNothing : Prop :=
  (∀ (s : State) (l : Line) (rest : List Call) (e : DecodeError), s.calls = .submit l :: rest → decodeLine l = .error e →
    step s = .next { s with calls := rest, result := some (.decoded (.error e)) }) ∧
  (∀ (s : State) (l : Line) (rest : List Call), s.calls = .decode l :: rest →
    step s = .next { s with calls := rest, result := some (.decoded (decodeLine l)) })

/-- A reset call gives the state of creation, whatever the state was, and leaves the calls that wait (the spec's D25,
log 22). -/
def Obligations.ResetCallGivesFreshState : Prop :=
  ∀ (s : State) (rest : List Call), s.calls = .reset :: rest → step s = .next { State.reset with calls := rest }

/-- The word the host places is the next instruction that runs (log 5): the line that stands for it decodes to its
instruction. The word layout is from general knowledge (log 6). -/
def Obligations.PlacedWordRunsNext : Prop :=
  ∀ (nbits w : Nat) (i : Instr) (s : State), decodeTableWord nbits w = some i →
    step (s.withFetchWord nbits w) = exec i s

/-- No submitted line makes the Executor return RegisterError: what the Decoder emits always passes the register check
(R123, derived from R65). -/
def Obligations.SubmittedLineNeverFailsRegisterCheck : Prop :=
  ∀ (s t : State) (l : Line) (rest : List Call), s.calls = .submit l :: rest → step s = .next t →
    ¬ t.Returned (.error .registerError)

/-! ## The Decoder -/

/-- Decode and encode agree on lines: the line written for a well-formed Instruction decodes to it, every operand at
every value. -/
def Obligations.EncodedLineDecodesBack : Prop :=
  ∀ i : Instr, i.wellFormed = true → decodeLine (encodeLine i) = .ok i

/-- The decoder is the grammar: it returns an Instruction exactly for the well-formed lines, and that one. The grammar
of R72 to R77 holds the spec's decisions D7 to D12 and D14 (log 15, 16, 18). -/
def Obligations.DecoderAcceptsExactlyTheGrammar : Prop :=
  ∀ (l : Line) (i : Instr), decodeLine l = .ok i ↔ WellFormedLine l i

/-- What the Decoder emits has every register field in [0, 31], and 0 in the fields of JR that are not meaningful
(R65, R66). -/
def Obligations.DecodedInstructionIsWellFormed : Prop :=
  ∀ (l : Line) (i : Instr), decodeLine l = .ok i → i.wellFormed = true

/-- R94: a mnemonic that is none of the twelve is a parameter error, whatever operands follow it, and also alone on its
line, without a separator. What counts as whitespace is the spec's decision D8 (log 16). -/
def Obligations.UnknownMnemonicIsParameterError : Prop :=
  ∀ mnem : Line, mnem ≠ [] → (∀ c ∈ mnem, ¬ IsSpace c) →
    mnem ∉ [text "add", text "sub", text "and", text "or", text "slt", text "jr", text "addi", text "beq", text "lw",
      text "sw", text "j", text "jal"] →
    decodeLine mnem = .error .parameterError ∧
    ∀ ws ops : Line, ws ≠ [] → (∀ c ∈ ws, IsSpace c) → decodeLine (mnem ++ (ws ++ ops)) = .error .parameterError

/-- R93: a split that does not give two non-empty parts is a parameter error: a line with nothing after its first
whitespace run or with no whitespace at all (the empty line, a known mnemonic alone, `add$1,$2,$3`), and a line that
starts with whitespace (D8, D9; log 16). -/
def Obligations.FailedSplitIsParameterError : Prop :=
  (∀ m ws : Line, (∀ c ∈ m, ¬ IsSpace c) → (∀ c ∈ ws, IsSpace c) → decodeLine (m ++ ws) = .error .parameterError) ∧
  (∀ (c : Chr) (l : Line), IsSpace c → decodeLine (c :: l) = .error .parameterError)

/-- A line of 100 characters or more is a parameter error, whatever it holds (the spec's D7, log 15). -/
def Obligations.OverlongLineIsParameterError : Prop :=
  ∀ l : Line, 100 ≤ l.length → decodeLine l = .error .parameterError

/-- In a line of the right structure a register index out of range, however large, is RegisterError (R96), in every form
that has a register: of three registers if any is; in `jr`; in `addi` and `beq` if either is, whatever the immediate
holds; in `lw` and `sw` if the first is, whatever the immediate holds, or if the base is and the immediate is good.
The size is the spec's decision D11 (log 16), that the field further left decides its D13 (log 17). -/
def Obligations.RegisterIndexOutOfRangeIsRegisterError : Prop :=
  ∀ (o : Op) (ws ops : Line), ws ≠ [] → (∀ c ∈ ws, IsSpace c) → (o.mnemonic ++ (ws ++ ops)).length ≤ 99 →
    ((o ∈ [Op.add, .sub, .and, .or, .slt] ∧ ∃ (f0 f1 f2 : Line) (r0 r1 r2 : Int),
        ops = f0 ++ 0x2C#8 :: (f1 ++ 0x2C#8 :: f2) ∧ RegText f0 r0 ∧ RegText f1 r1 ∧ RegText f2 r2 ∧
        ¬ (ValidReg r0 ∧ ValidReg r1 ∧ ValidReg r2)) ∨
     (o = .jr ∧ ∃ r : Int, RegText ops r ∧ ¬ ValidReg r) ∨
     (o ∈ [Op.addi, .beq] ∧ ∃ (f0 f1 f2 : Line) (r0 r1 : Int),
        ops = f0 ++ 0x2C#8 :: (f1 ++ 0x2C#8 :: f2) ∧ RegText f0 r0 ∧ RegText f1 r1 ∧ 0x2C#8 ∉ f2 ∧
        ¬ (ValidReg r0 ∧ ValidReg r1)) ∨
     (o ∈ [Op.lw, .sw] ∧ ∃ (f0 f1 f2 : Line) (r0 r2 : Int),
        ops = f0 ++ 0x2C#8 :: (f1 ++ 0x28#8 :: (f2 ++ [0x29#8])) ∧ RegText f0 r0 ∧ 0x28#8 ∉ f1 ∧ RegText f2 r2 ∧
        (¬ ValidReg r0 ∨ (¬ ValidReg r2 ∧ ∃ imm : Word, IntText f1 imm.toInt)))) →
    decodeLine (o.mnemonic ++ (ws ++ ops)) = .error .registerError

/-- In a form of three fields any number of commas but two is a parameter error, whatever the fields hold (R95; that the
count comes before the fields is the spec's decision D13, log 17). -/
def Obligations.WrongFieldCountIsParameterError : Prop :=
  ∀ (o : Op) (ws ops : Line), o ∈ [Op.add, .sub, .and, .or, .slt, .addi, .beq] → ws ≠ [] → (∀ c ∈ ws, IsSpace c) →
    ops.count 0x2C#8 ≠ 2 → decodeLine (o.mnemonic ++ (ws ++ ops)) = .error .parameterError

/-- In `lw` and `sw` a missing `,`, `(` or `)` is a parameter error, whatever else the operands hold (R100; that the
delimiters come before the fields is the spec's decision D13, log 17). -/
def Obligations.MissingDelimiterIsParameterError : Prop :=
  ∀ (o : Op) (ws ops : Line), o ∈ [Op.lw, .sw] → ws ≠ [] → (∀ c ∈ ws, IsSpace c) →
    (0x2C#8 ∉ ops ∨ 0x28#8 ∉ ops ∨ 0x29#8 ∉ ops) →
    decodeLine (o.mnemonic ++ (ws ++ ops)) = .error .parameterError

/-- Lines the spec shows (95_test_vectors.md part 1) decode, or fail, as it says. -/
def Obligations.ShownLinesDecode : Prop :=
  decodeLine (text "add $1,$2,$3") = .ok (.add 1 2 3) ∧
  decodeLine (text "addi $1,$2,1") = .ok (.addi 2 1 1#32) ∧
  decodeLine (text "sw $1,4($0)") = .ok (.sw 0 1 4#32) ∧
  decodeLine (text "lw $2,4($0)") = .ok (.lw 0 2 4#32) ∧
  decodeLine (text "beq $1,$2,-1") = .ok (.beq 2 1 (-1#32)) ∧
  decodeLine (text "j 1024") = .ok (.j 1024#32) ∧
  decodeLine (text "jal 10") = .ok (.jal 10#32) ∧
  decodeLine (text "jr $31") = .ok (.jr 0 31 0) ∧
  decodeLine (text "addx $1,$2,$3") = .error .parameterError ∧
  decodeLine (text "add $1,$40,$3") = .error .registerError

/-! ## Codes and machine words -/

/-- R68: the numeric codes. -/
def Obligations.NumericCodes : Prop :=
  Op.function .add = some 0x20#6 ∧ Op.function .sub = some 0x22#6 ∧ Op.function .and = some 0x24#6 ∧
  Op.function .or = some 0x25#6 ∧ Op.function .slt = some 0x2A#6 ∧ Op.function .jr = some 0x08#6 ∧
  (∀ o : Op, o.format = .registerOp → o.opcode = 0x00#6) ∧
  Op.opcode .addi = 0x08#6 ∧ Op.opcode .lw = 0x23#6 ∧ Op.opcode .sw = 0x2B#6 ∧ Op.opcode .beq = 0x04#6 ∧
  Op.opcode .j = 0x02#6 ∧ Op.opcode .jal = 0x03#6

/-- Machine words of the spec's vectors (95_test_vectors.md parts 1 and 2) decode to their instructions; the layout is
from general knowledge (log 6). -/
def Obligations.ShownWordsDecode : Prop :=
  decodeWord 0x00430820#32 = .ok (.add 1 2 3) ∧
  decodeWord 0x20410001#32 = .ok (.addi 2 1 1#32) ∧
  decodeWord 0xAC010004#32 = .ok (.sw 0 1 4#32) ∧
  decodeWord 0x8CE2FFFD#32 = .ok (.lw 7 2 (-3#32)) ∧
  decodeWord 0x1041FFFF#32 = .ok (.beq 2 1 (-1#32)) ∧
  decodeWord 0x0C00000A#32 = .ok (.jal 10#32) ∧
  decodeWord 0x03E00008#32 = .ok (.jr 0 31 0)

/-- Decode and encode agree on machine words: every Instruction that has a word is read back from it. The layout is from
general knowledge (log 6). -/
def Obligations.EncodedWordDecodesBack : Prop :=
  ∀ i : Instr, i.hasWord = true → ∃ w : Word, encode i = some w ∧ decodeWord w = .ok i

/-- The other direction: a word that decodes is the word of its instruction, so no two words mean the same. The layout is
from general knowledge (log 6). -/
def Obligations.DecodedWordEncodesBack : Prop :=
  ∀ (w : Word) (i : Instr), decodeWord w = .ok i → encode i = some w

/-- The word decoder selects by the opcode table: a word decodes to an operation exactly when it matches that
operation's row. The layout is from general knowledge (log 6). -/
def Obligations.WordRowsSelectTheOperation : Prop :=
  ∀ (w : Word), ∀ row ∈ wordRows,
    (w &&& row.mask = row.pattern ↔ ∃ i : Instr, decodeWord w = .ok i ∧ i.op = row.op)

/-! ## The ALU family -/

/-- ADD (R137): the exact signed sum in rd and Ok, or OverflowError with nothing changed but pc. The effect of overflow
on pc is the spec's decision D4 (log 8) and the test for rd = 0 its D27 (log 21). -/
def Obligations.AddWritesExactSumOrReportsOverflow : Prop :=
  ∀ (d a b : Reg) (s : State),
    (¬ Overflow ((s.register a).toInt + (s.register b).toInt) →
      ∃ (t : State) (v : Word), Executes (.add d.num a.num b.num) s t (.ok ()) ∧
        v.toInt = (s.register a).toInt + (s.register b).toInt ∧
        WritesRegister s t d v ∧ SameMemory s t ∧ t.pc = s.pc + 4#32) ∧
    (Overflow ((s.register a).toInt + (s.register b).toInt) →
      ∃ t : State, Executes (.add d.num a.num b.num) s t (.error .overflowError) ∧
        SameRegisters s t ∧ SameMemory s t ∧ t.pc = s.pc + BitVec.ofNat 32 overflowPcStep)

/-- SUB (R138): the exact signed difference x[rs] - x[rt] in rd and Ok, or OverflowError with nothing changed but pc
(D4, D15, D27; log 8, log 21). -/
def Obligations.SubWritesExactDifferenceOrReportsOverflow : Prop :=
  ∀ (d a b : Reg) (s : State),
    (¬ Overflow ((s.register a).toInt - (s.register b).toInt) →
      ∃ (t : State) (v : Word), Executes (.sub d.num a.num b.num) s t (.ok ()) ∧
        v.toInt = (s.register a).toInt - (s.register b).toInt ∧
        WritesRegister s t d v ∧ SameMemory s t ∧ t.pc = s.pc + 4#32) ∧
    (Overflow ((s.register a).toInt - (s.register b).toInt) →
      ∃ t : State, Executes (.sub d.num a.num b.num) s t (.error .overflowError) ∧
        SameRegisters s t ∧ SameMemory s t ∧ t.pc = s.pc + BitVec.ofNat 32 overflowPcStep)

/-- AND (R139): its text, its codes, and bit i of rd is bit i of each source, and-ed; always Ok. It speaks of the bits of
the registers and of no signed value, so it holds whatever represents the signed words. -/
def Obligations.AndWritesBitwiseAnd : Prop :=
  (∀ d a b : Reg, decodeLine (text "and $" ++ natText d.val ++ text ",$" ++ natText a.val ++ text ",$" ++ natText b.val) =
    .ok (.and d.num a.num b.num)) ∧
  Op.opcode .and = 0x00#6 ∧ Op.function .and = some 0x24#6 ∧
  ∀ (d a b : Reg) (s : State), ∃ (t : State) (v : Word), Executes (.and d.num a.num b.num) s t (.ok ()) ∧
    (∀ k : Nat, v.getLsbD k = ((s.register a).getLsbD k && (s.register b).getLsbD k)) ∧
    WritesRegister s t d v ∧ SameMemory s t ∧ t.pc = s.pc + 4#32

/-- OR (R140): its text, its codes, and bit i of rd is bit i of either source; always Ok. It speaks of the bits of the
registers and of no signed value, as for AND. -/
def Obligations.OrWritesBitwiseOr : Prop :=
  (∀ d a b : Reg, decodeLine (text "or $" ++ natText d.val ++ text ",$" ++ natText a.val ++ text ",$" ++ natText b.val) =
    .ok (.or d.num a.num b.num)) ∧
  Op.opcode .or = 0x00#6 ∧ Op.function .or = some 0x25#6 ∧
  ∀ (d a b : Reg) (s : State), ∃ (t : State) (v : Word), Executes (.or d.num a.num b.num) s t (.ok ()) ∧
    (∀ k : Nat, v.getLsbD k = ((s.register a).getLsbD k || (s.register b).getLsbD k)) ∧
    WritesRegister s t d v ∧ SameMemory s t ∧ t.pc = s.pc + 4#32

/-- SLT (R141): its text, its codes, and rd is 1 if x[rs] < x[rt] as signed integers, else 0; always Ok. -/
def Obligations.SltWritesSignedComparison : Prop :=
  (∀ d a b : Reg, decodeLine (text "slt $" ++ natText d.val ++ text ",$" ++ natText a.val ++ text ",$" ++ natText b.val) =
    .ok (.slt d.num a.num b.num)) ∧
  Op.opcode .slt = 0x00#6 ∧ Op.function .slt = some 0x2A#6 ∧
  ∀ (d a b : Reg) (s : State), ∃ t : State, Executes (.slt d.num a.num b.num) s t (.ok ()) ∧
    WritesRegister s t d (if (s.register a).toInt < (s.register b).toInt then 1#32 else 0#32) ∧
    SameMemory s t ∧ t.pc = s.pc + 4#32

/-- ADDI (R142): the exact signed sum of x[rs] and the full immediate in rt and Ok, or OverflowError with nothing changed
but pc (D4, D12, D27; log 8, log 18, log 21). -/
def Obligations.AddiWritesExactSumOrReportsOverflow : Prop :=
  ∀ (a d : Reg) (imm : Word) (s : State),
    (¬ Overflow ((s.register a).toInt + imm.toInt) →
      ∃ (t : State) (v : Word), Executes (.addi a.num d.num imm) s t (.ok ()) ∧
        v.toInt = (s.register a).toInt + imm.toInt ∧
        WritesRegister s t d v ∧ SameMemory s t ∧ t.pc = s.pc + 4#32) ∧
    (Overflow ((s.register a).toInt + imm.toInt) →
      ∃ t : State, Executes (.addi a.num d.num imm) s t (.error .overflowError) ∧
        SameRegisters s t ∧ SameMemory s t ∧ t.pc = s.pc + BitVec.ofNat 32 overflowPcStep)

/-- A step that returns OverflowError adds 4 to pc, and comes from ADD, SUB or ADDI (R128, R179; the 4 is the spec's
decision D4, log 8). -/
def Obligations.OverflowAdvancesPcByFour : Prop :=
  ∀ (i : Instr) (s t : State), Executes i s t (.error .overflowError) →
    (i.op = .add ∨ i.op = .sub ∨ i.op = .addi) ∧ t.pc = s.pc + 4#32 ∧ SameRegisters s t ∧ SameMemory s t

/-- The tests that need no wider arithmetic are the condition on the exact result, for addition as the document prints
it and for subtraction as the spec mirrors it (R136; the mirror is D15, log 21). -/
def Obligations.OverflowTestsAreExact : Prop :=
  ∀ a b : Word,
    (addOverflowTest a.toInt b.toInt ↔ Overflow (a.toInt + b.toInt)) ∧
    (subOverflowTest a.toInt b.toInt ↔ Overflow (a.toInt - b.toInt))

/-! ## The load/store family -/

/-- LW (R151): its text and code; at a valid word index the whole word goes to rt and Ok; at any other MemoryError and
nothing changes. That the index is the exact sum, not a wrapped one, is the spec's decision D16 (log 14). -/
def Obligations.LwLoadsTheWordAtTheIndex : Prop :=
  (∀ (b d : Reg) (imm : Word),
    decodeLine (text "lw $" ++ natText d.val ++ text "," ++ intText imm.toInt ++ text "($" ++ natText b.val ++ text ")") =
      .ok (.lw b.num d.num imm)) ∧
  Op.opcode .lw = 0x23#6 ∧
  ∀ (b d : Reg) (imm : Word) (s : State),
    (∀ ea : MemIndex, (ea.val : Int) = (s.register b).toInt + imm.toInt →
      ∃ t : State, Executes (.lw b.num d.num imm) s t (.ok ()) ∧
        WritesRegister s t d (s.memory ea) ∧ SameMemory s t ∧ t.pc = s.pc + 4#32) ∧
    (¬ (0 ≤ (s.register b).toInt + imm.toInt ∧ (s.register b).toInt + imm.toInt ≤ 1023) →
      ∃ t : State, Executes (.lw b.num d.num imm) s t (.error .memoryError) ∧ SameMachine s t)

/-- SW (R152): its text and code; at a valid word index the word of rt is stored there, every other word and every
register stays, and Ok; at any other index MemoryError and nothing changes. The exact index is the spec's decision D16
(log 14). A state that no run reaches, with memory not in canonical form, is ruled out by the invariant. -/
def Obligations.SwStoresTheWordAtTheIndex : Prop :=
  (∀ (b v : Reg) (imm : Word),
    decodeLine (text "sw $" ++ natText v.val ++ text "," ++ intText imm.toInt ++ text "($" ++ natText b.val ++ text ")") =
      .ok (.sw b.num v.num imm)) ∧
  Op.opcode .sw = 0x2B#6 ∧
  ∀ (b v : Reg) (imm : Word) (s : State), s.mem.wf = true →
    (∀ ea : MemIndex, (ea.val : Int) = (s.register b).toInt + imm.toInt →
      ∃ t : State, Executes (.sw b.num v.num imm) s t (.ok ()) ∧
        WritesMemory s t ea (s.register v) ∧ SameRegisters s t ∧ t.pc = s.pc + 4#32) ∧
    (¬ (0 ≤ (s.register b).toInt + imm.toInt ∧ (s.register b).toInt + imm.toInt ≤ 1023) →
      ∃ t : State, Executes (.sw b.num v.num imm) s t (.error .memoryError) ∧ SameMachine s t)

/-- A load reads what the store just before it wrote, through any base and displacement that name the same word (R45,
R50, scenario S3). -/
def Obligations.LoadAfterStoreReadsTheStoredWord : Prop :=
  ∀ (b v b' d : Reg) (imm imm' : Word) (s t u : State), s.mem.wf = true →
    Executes (.sw b.num v.num imm) s t (.ok ()) → Executes (.lw b'.num d.num imm') t u (.ok ()) →
    (s.register b').toInt + imm'.toInt = (s.register b).toInt + imm.toInt →
    WritesRegister s u d (s.register v)

/-! ## The control transfers -/

/-- JR (R161): to a register value in [0, 4096) that is a multiple of 4, pc becomes it exactly and Ok; to any other,
MemoryError and nothing changes. The fields rd and rt do not matter. That a misaligned value fails is the spec's
decision D6 (log 13). -/
def Obligations.JrSetsPcToTheRegister : Prop :=
  ∀ (rd rt : Int) (a : Reg) (s : State),
    (0 ≤ (s.register a).toInt ∧ (s.register a).toInt < 4096 ∧ (s.register a).toInt % 4 = 0 →
      ∃ t : State, Executes (.jr rd a.num rt) s t (.ok ()) ∧
        (t.pc.toNat : Int) = (s.register a).toInt ∧ SameRegisters s t ∧ SameMemory s t) ∧
    (¬ (0 ≤ (s.register a).toInt ∧ (s.register a).toInt < 4096 ∧ (s.register a).toInt % 4 = 0) →
      ∃ t : State, Executes (.jr rd a.num rt) s t (.error .memoryError) ∧ SameMachine s t)

/-- BEQ (R163, R164): equal registers take it to current pc + 4 * immediate, exact, if that is a valid target, and give
MemoryError with nothing changed if not; unequal registers advance pc by 4 whatever the immediate (D17, D28; log 14,
log 24). -/
def Obligations.BeqBranchesFromTheCurrentPc : Prop :=
  ∀ (a b : Reg) (imm : Word) (s : State),
    (s.register a ≠ s.register b →
      ∃ t : State, Executes (.beq a.num b.num imm) s t (.ok ()) ∧
        t.pc = s.pc + 4#32 ∧ SameRegisters s t ∧ SameMemory s t) ∧
    (s.register a = s.register b → ValidTarget ((s.pc.toNat : Int) + 4 * imm.toInt) →
      ∃ t : State, Executes (.beq a.num b.num imm) s t (.ok ()) ∧
        (t.pc.toNat : Int) = (s.pc.toNat : Int) + 4 * imm.toInt ∧ SameRegisters s t ∧ SameMemory s t) ∧
    (s.register a = s.register b → ¬ ValidTarget ((s.pc.toNat : Int) + 4 * imm.toInt) →
      ∃ t : State, Executes (.beq a.num b.num imm) s t (.error .memoryError) ∧ SameMachine s t)

/-- J (R165): its text and code; pc becomes 4 * address and Ok for an address up to 1023; MemoryError and nothing
changes for any larger. That the product does not wrap is the spec's decision D17 (log 14). -/
def Obligations.JumpSetsPcToFourTimesAddress : Prop :=
  (∀ address : Word, decodeLine (text "j " ++ natText address.toNat) = .ok (.j address)) ∧
  Op.opcode .j = 0x02#6 ∧
  ∀ (address : Word) (s : State),
    (address.toNat ≤ 1023 →
      ∃ t : State, Executes (.j address) s t (.ok ()) ∧
        t.pc.toNat = 4 * address.toNat ∧ SameRegisters s t ∧ SameMemory s t) ∧
    (1023 < address.toNat →
      ∃ t : State, Executes (.j address) s t (.error .memoryError) ∧ SameMachine s t)

/-- JAL (R167): pc becomes 4 * address, register 31 the current pc + 4, and Ok for an address up to 1023; MemoryError,
register 31 and pc unchanged, for any larger. The exact product is the spec's D17 (log 14), the link of a pc beyond every
valid state its D24 (log 23). -/
def Obligations.JumpAndLinkSavesPcPlusFour : Prop :=
  ∀ (address : Word) (s : State),
    (address.toNat ≤ 1023 →
      ∃ t : State, Executes (.jal address) s t (.ok ()) ∧
        t.pc.toNat = 4 * address.toNat ∧ WritesRegister s t 31 (s.pc + 4#32) ∧ SameMemory s t) ∧
    (1023 < address.toNat →
      ∃ t : State, Executes (.jal address) s t (.error .memoryError) ∧ SameMachine s t)

/-- A subroutine return (R168): from a valid state below pc = 4092, JAL and then `jr $31` come back to the instruction
after the JAL. -/
def Obligations.JrReturnsAfterJal : Prop :=
  ∀ (address : Word) (s t : State), s.Valid → s.pc.toNat ≤ 4088 → Executes (.jal address) s t (.ok ()) →
    ∃ u : State, Executes (.jr 0 31 0) t u (.ok ()) ∧ u.pc = s.pc + 4#32

/-! ## Errors and frames over all instructions -/

/-- The register check (R123): RegisterError exactly when a meaningful register field is outside [0, 31], before every
other check, and then nothing changes. Which fields, and that they come first, is the spec's decision D18 (log 19). -/
def Obligations.RegisterErrorExactlyForBadFields : Prop :=
  ∀ (i : Instr) (s : State),
    ((∃ r ∈ i.meaningfulRegs, ¬ ValidReg r) →
      ∃ t : State, Executes i s t (.error .registerError) ∧ SameMachine s t) ∧
    ((∀ r ∈ i.meaningfulRegs, ValidReg r) → ∀ t : State, ¬ Executes i s t (.error .registerError))

/-- R129: a step that returns RegisterError or MemoryError changes nothing, pc included; a step that returns
OverflowError changes nothing but pc. -/
def Obligations.FailedStepChangesNothing : Prop :=
  ∀ (i : Instr) (s t : State) (e : ExecError), Executes i s t (.error e) →
    SameRegisters s t ∧ t.mem = s.mem ∧ (e ≠ .overflowError → t.pc = s.pc)

/-- R180: which instruction can return which error. -/
def Obligations.ErrorsFollowTheMatrix : Prop :=
  ∀ (i : Instr) (s t : State) (e : ExecError), Executes i s t (.error e) → e ∈ i.op.errors

/-- The bounds of R23's table: what a step does depends on no register but those the table says it reads, and it writes no
register but the one the table says. That each of those is read is said by the statements of the results. -/
def Obligations.RegisterReadsAndWritesFollowTheTable : Prop :=
  ∀ (i : Instr) (s s' t t' : State) (r r' : ExecResult),
    s'.pc = s.pc → s'.mem = s.mem → (∀ k : Reg, k.num ∈ i.sources → s'.register k = s.register k) →
    Executes i s t r → Executes i s' t' r' →
    r' = r ∧ t'.pc = t.pc ∧ t'.mem = t.mem ∧
    (∀ k : Reg, i.destination = some k.num → r = .ok () → t'.register k = t.register k) ∧
    (∀ k : Reg, i.destination ≠ some k.num → t.register k = s.register k)

/-- R28: the memory is written only by SW and read only by LW. -/
def Obligations.OnlySwWritesAndOnlyLwReadsMemory : Prop :=
  (∀ (i : Instr) (s t : State), i.op ≠ .sw → exec i s = .next t → SameMemory s t) ∧
  (∀ (i : Instr) (s t t' : State) (m : Memory), i.op ≠ .lw → exec i s = .next t → exec i { s with mem := m } = .next t' →
    SameRegisters t t' ∧ t'.pc = t.pc ∧ t'.result = t.result)

/-- Only BEQ and JAL use the current pc, beside the advance of pc itself (R25): every other instruction gives the same
result, registers and memory at any pc; JR and J that return Ok reach the same target from any pc, and every other step
moves pc by the same amount. -/
def Obligations.OnlyBeqAndJalUsePc : Prop :=
  ∀ (i : Instr) (s t t' : State) (p : Word), i.op ≠ .beq → i.op ≠ .jal →
    exec i s = .next t → exec i { s with pc := p } = .next t' →
    SameRegisters t t' ∧ t'.mem = t.mem ∧ t'.result = t.result ∧
    ((i.op = .jr ∨ i.op = .j) ∧ t.Returned (.ok ()) → t'.pc = t.pc) ∧
    (¬ ((i.op = .jr ∨ i.op = .j) ∧ t.Returned (.ok ())) → t'.pc - p = t.pc - s.pc)

/-- R185: the block keeps no memory of an earlier error: after a failed step every later one behaves as if the failed
one had never been issued, or, for overflow, had been a step that only moved pc. -/
def Obligations.EarlierErrorLeavesNoTrace : Prop :=
  ∀ (i j : Instr) (s t : State) (e : ExecError), Executes i s t (.error e) →
    exec j t = exec j (if e = .overflowError then { s with pc := t.pc } else s)
end

