-- ==== Sys2Proof/Laws/Text.lean ====
section
/-! SUPPORT. Sys2Proof/Laws/Text.lean: one lemma per parser of the Decoder: what it accepts is what the grammar says
(spec/30_encoding.md R72 to R75), and the numbers the encoder writes are read back. -/

namespace Sys2Proof

theorem digitChr_toNat (d : Fin 10) : (digitChr d).toNat = 0x30 + d.val := by
  revert d; decide

theorem isDigit_digitChr (d : Fin 10) : isDigit (digitChr d) = true := by
  revert d; decide

/-- A digit is the character of its value. -/
theorem eq_digitChr {c : Chr} (h : isDigit c = true) : ∃ d : Fin 10, c = digitChr d ∧ d.val = c.toNat - 0x30 := by
  simp only [isDigit, Bool.and_eq_true, decide_eq_true_eq] at h
  refine ⟨⟨c.toNat - 0x30, by omega⟩, ?_, rfl⟩
  apply BitVec.eq_of_toNat_eq
  rw [digitChr_toNat]
  simp only
  omega

theorem digitValue_digitChr (d : Fin 10) : digitValue (digitChr d) = d.val := by
  rw [digitValue, digitChr_toNat]
  omega

theorem decimal_single (c : Chr) : decimal [c] = digitValue c := by
  simp only [decimal, List.foldl_cons, List.foldl_nil]
  omega

theorem decimal_snoc (s : Line) (c : Chr) : decimal (s ++ [c]) = 10 * decimal s + digitValue c := by
  simp only [decimal, List.foldl_append, List.foldl_cons, List.foldl_nil]

/-- The texts `parseUInt` accepts are the digit strings, with their value. -/
theorem parseUInt_eq_some {s : Line} {n : Nat} :
    parseUInt s = some n ↔ s ≠ [] ∧ s.all isDigit = true ∧ decimal s = n := by
  unfold parseUInt
  split
  · next h => simp [h]
  · next h => simp only [reduceCtorEq, false_iff]; tauto

theorem UIntText.parse {s : Line} {n : Nat} (h : UIntText s n) : parseUInt s = some n := by
  rw [parseUInt_eq_some]
  induction h with
  | digit d => exact ⟨by simp, by simp [isDigit_digitChr], by rw [decimal_single, digitValue_digitChr]⟩
  | more t n d _ ih =>
    obtain ⟨-, ha, hv⟩ := ih
    exact ⟨by simp, by simp [ha, isDigit_digitChr], by rw [decimal_snoc, hv, digitValue_digitChr]⟩

theorem uintText_of_digits (s : Line) : s ≠ [] → s.all isDigit = true → UIntText s (decimal s) := by
  induction s using List.reverseRecOn with
  | nil => intro h; exact absurd rfl h
  | append_singleton t c ih =>
    intro _ ha
    simp only [List.all_append, List.all_cons, List.all_nil, Bool.and_true, Bool.and_eq_true] at ha
    obtain ⟨d, rfl, -⟩ := eq_digitChr ha.2
    by_cases ht : t = []
    · rw [ht, List.nil_append, decimal_single, digitValue_digitChr]
      exact .digit d
    · rw [decimal_snoc, digitValue_digitChr]
      exact .more t _ d (ih ht ha.1)

/-- `parseUInt` is the grammar's `UINT` (R73). -/
theorem parseUInt_iff {s : Line} {n : Nat} : parseUInt s = some n ↔ UIntText s n := by
  constructor
  · intro h
    obtain ⟨hs, ha, rfl⟩ := parseUInt_eq_some.1 h
    exact uintText_of_digits s hs ha
  · exact UIntText.parse

theorem UIntText.digits {s : Line} {n : Nat} (h : UIntText s n) : s ≠ [] ∧ ∀ c ∈ s, isDigit c = true := by
  obtain ⟨hs, ha, -⟩ := parseUInt_eq_some.1 h.parse
  exact ⟨hs, List.all_eq_true.1 ha⟩

/-- `parseInt` is the grammar's `INT` (R73). -/
theorem parseInt_iff {s : Line} {v : Int} : parseInt s = some v ↔ IntText s v := by
  constructor
  · intro h
    cases s with
    | nil => simp [parseInt] at h
    | cons c t =>
      simp only [parseInt] at h
      split at h
      · next hc =>
        obtain ⟨n, hn, rfl⟩ := Option.map_eq_some_iff.1 h
        subst hc
        exact .minus t _ (parseUInt_iff.1 hn)
      · obtain ⟨n, hn, rfl⟩ := Option.map_eq_some_iff.1 h
        exact .plain _ _ (parseUInt_iff.1 hn)
  · intro h
    cases h with
    | plain t n h =>
      cases s with
      | nil => exact absurd rfl h.digits.1
      | cons c t =>
        have hc : c ≠ 0x2D#8 := by
          rintro rfl
          have := h.digits.2 0x2D#8 (by simp)
          revert this; decide
        simp [parseInt, hc, h.parse]
    | minus t n h => simp [parseInt, h.parse]

theorem IntText.chars {s : Line} {v : Int} (h : IntText s v) :
    ∀ c ∈ s, isDigit c = true ∨ c = 0x2D#8 := by
  cases h with
  | plain t n h => exact fun c hc => .inl (h.digits.2 c hc)
  | minus t n h =>
    intro c hc
    rcases List.mem_cons.1 hc with rfl | hc
    · exact .inr rfl
    · exact .inl (h.digits.2 c hc)

theorem RegText.chars {s : Line} {r : Int} (h : RegText s r) :
    ∀ c ∈ s, isDigit c = true ∨ c = 0x2D#8 ∨ c = 0x24#8 := by
  obtain ⟨t, r, h⟩ := h
  intro c hc
  rcases List.mem_cons.1 hc with rfl | hc
  · exact .inr (.inr rfl)
  · rcases h.chars c hc with h | h
    · exact .inl h
    · exact .inr (.inl h)

/-- A register field of the right shape decides by its range alone (R96). -/
theorem RegText.parse {s : Line} {r : Int} (h : RegText s r) :
    parseReg s = if ValidReg r then .ok r else .error .registerError := by
  obtain ⟨t, r, h⟩ := h
  simp [parseReg, parseInt_iff.2 h]

/-- `parseReg` is the grammar's `REG` with `ValidReg` (R74, R96). -/
theorem parseReg_iff {s : Line} {r : Int} : parseReg s = .ok r ↔ RegText s r ∧ ValidReg r := by
  constructor
  · intro h
    cases s with
    | nil => simp [parseReg] at h
    | cons c t =>
      simp only [parseReg] at h
      split at h
      · next hc =>
        split at h
        · cases h
        · next q hq =>
          split at h
          · next hv =>
            cases h
            subst hc
            exact ⟨.intro t _ (parseInt_iff.1 hq), hv⟩
          · cases h
      · cases h
  · rintro ⟨h, hv⟩
    rw [h.parse, if_pos hv]

theorem toInt_range (w : Word) : -2147483648 ≤ w.toInt ∧ w.toInt ≤ 2147483647 := by
  have := BitVec.toInt_lt (x := w)
  have := BitVec.le_toInt (x := w)
  constructor <;> omega

theorem wrap32_toInt (w : Word) : wrap32 w.toInt = w := BitVec.ofInt_toInt

theorem toInt_wrap32_of_range {v : Int} (h : -2147483648 ≤ v ∧ v ≤ 2147483647) : (wrap32 v).toInt = v := by
  simp only [wrap32, BitVec.toInt_ofInt, Int.bmod]
  omega

/-- `parseImm` is the grammar's `IMM` (R75, R99). -/
theorem parseImm_iff {s : Line} {w : Word} : parseImm s = .ok w ↔ IntText s w.toInt := by
  unfold parseImm
  constructor
  · intro h
    split at h
    · cases h
    · next v hv =>
      split at h
      · next hr =>
        cases h
        rw [toInt_wrap32_of_range hr]
        exact parseInt_iff.1 hv
      · cases h
  · intro h
    rw [parseInt_iff.2 h]
    simp only
    rw [if_pos (toInt_range w), wrap32_toInt]

/-- `parseAddr` is the grammar's `ADDR` (R75, R101). -/
theorem parseAddr_iff {s : Line} {w : Word} : parseAddr s = .ok w ↔ UIntText s w.toNat := by
  unfold parseAddr
  constructor
  · intro h
    split at h
    · cases h
    · next v hv =>
      split at h
      · next hr =>
        cases h
        rw [BitVec.toNat_ofNat, Nat.mod_eq_of_lt (by omega)]
        exact parseUInt_iff.1 hv
      · cases h
  · intro h
    have := w.isLt
    rw [parseUInt_iff.2 h]
    simp only
    rw [if_pos (by omega), BitVec.ofNat_toNat, BitVec.setWidth_eq]

/-! ## Cutting -/

theorem splitCommas_of_not_mem {s : Line} (h : (0x2C#8 : Chr) ∉ s) : splitCommas s = [s] := by
  induction s with
  | nil => rfl
  | cons c t ih =>
    have h1 : c ≠ 0x2C#8 := fun e => h (e ▸ List.mem_cons_self)
    have h2 : (0x2C#8 : Chr) ∉ t := fun hm => h (List.mem_cons_of_mem _ hm)
    simp [splitCommas, h1, ih h2]

theorem splitCommas_append {s : Line} (t : Line) (h : (0x2C#8 : Chr) ∉ s) :
    splitCommas (s ++ 0x2C#8 :: t) = s :: splitCommas t := by
  induction s with
  | nil => simp [splitCommas]
  | cons c s ih =>
    have h1 : c ≠ 0x2C#8 := fun e => h (e ▸ List.mem_cons_self)
    have h2 : (0x2C#8 : Chr) ∉ s := fun hm => h (List.mem_cons_of_mem _ hm)
    simp [splitCommas, h1, ih h2]

theorem splitCommas_ne_nil (s : Line) : splitCommas s ≠ [] := by
  cases s with
  | nil => simp [splitCommas]
  | cons c t =>
    simp only [splitCommas]
    split
    · simp
    · split <;> simp

/-- The fields put together again are the text. -/
theorem splitCommas_one {s f : Line} (h : splitCommas s = [f]) : s = f := by
  induction s generalizing f with
  | nil => simpa [splitCommas] using h
  | cons c t ih =>
    simp only [splitCommas] at h
    split at h
    · simp only [List.cons.injEq] at h
      exact absurd h.2 (splitCommas_ne_nil t)
    · split at h
      · next h' => exact absurd h' (splitCommas_ne_nil t)
      · next g gs h' =>
        simp only [List.cons.injEq] at h
        obtain ⟨rfl, rfl⟩ := h
        rw [ih h']

theorem splitCommas_cons {s f g : Line} {fs : List Line} (h : splitCommas s = f :: g :: fs) :
    ∃ t, s = f ++ 0x2C#8 :: t ∧ splitCommas t = g :: fs := by
  induction s generalizing f with
  | nil => simp [splitCommas] at h
  | cons c t ih =>
    simp only [splitCommas] at h
    split at h
    · next hc =>
      simp only [List.cons.injEq] at h
      obtain ⟨rfl, h⟩ := h
      exact ⟨t, by simp [hc], h⟩
    · split at h
      · next h' => exact absurd h' (splitCommas_ne_nil t)
      · next f' fs' h' =>
        simp only [List.cons.injEq] at h
        obtain ⟨rfl, rfl⟩ := h
        obtain ⟨u, rfl, hu⟩ := ih h'
        exact ⟨u, by simp, hu⟩

theorem splitCommas_three {s f0 f1 f2 : Line} (h : splitCommas s = [f0, f1, f2]) :
    s = f0 ++ 0x2C#8 :: (f1 ++ 0x2C#8 :: f2) := by
  obtain ⟨t, hs, h⟩ := splitCommas_cons h
  obtain ⟨u, ht, h⟩ := splitCommas_cons h
  rw [hs, ht, splitCommas_one h]

/-- k commas give k + 1 fields (R95). -/
theorem splitCommas_length (s : Line) : (splitCommas s).length = s.count 0x2C#8 + 1 := by
  induction s with
  | nil => rfl
  | cons c t ih =>
    simp only [splitCommas]
    split
    · next h => subst h; simp [ih]
    · next h =>
      split
      · next he => rw [he] at ih; simp at ih
      · next f fs he => rw [he] at ih; simpa [List.count_cons_of_ne h] using ih

/-- No delimiter, no cut (R100). -/
theorem cutAt_eq_none {d : Chr} {s : Line} (h : d ∉ s) : cutAt d s = none := by
  induction s with
  | nil => rfl
  | cons c t ih =>
    simp only [List.mem_cons, not_or] at h
    simp [cutAt, Ne.symm h.1, ih h.2]

theorem cutAt_append {d : Chr} {s : Line} (t : Line) (h : d ∉ s) : cutAt d (s ++ d :: t) = some (s, t) := by
  induction s with
  | nil => simp [cutAt]
  | cons c s ih =>
    have h1 : c ≠ d := fun e => h (e ▸ List.mem_cons_self)
    have h2 : d ∉ s := fun hm => h (List.mem_cons_of_mem _ hm)
    simp [cutAt, h1, ih h2]

theorem cutAt_eq_some {d : Chr} {s a u : Line} (h : cutAt d s = some (a, u)) : s = a ++ d :: u := by
  induction s generalizing a u with
  | nil => simp [cutAt] at h
  | cons c t ih =>
    simp only [cutAt] at h
    split at h
    · next hc => cases h; simp [hc]
    · obtain ⟨p, hp, he⟩ := Option.map_eq_some_iff.1 h
      cases he
      rw [ih hp]
      rfl

/-! ## Numbers the encoder writes -/

theorem uintText_natDigits (fuel n : Nat) (h : n < 10 ^ (fuel + 1)) : UIntText (natDigits (fuel + 1) n) n := by
  induction fuel generalizing n with
  | zero =>
    have hn : n < 10 := by simpa using h
    simp only [natDigits, if_pos hn]
    exact .digit ⟨n, hn⟩
  | succ fuel ih =>
    rw [natDigits]
    split
    · next hn => exact .digit ⟨n, hn⟩
    · have := UIntText.more _ _ ⟨n % 10, by omega⟩ (ih (n / 10) (by omega))
      have e : 10 * (n / 10) + n % 10 = n := by omega
      simp only [e] at this
      exact this

theorem uintText_natText {n : Nat} (h : n < 10 ^ 10) : UIntText (natText n) n := uintText_natDigits 9 n h

theorem intText_intText {v : Int} (h : v.natAbs < 10 ^ 10) : IntText (intText v) v := by
  unfold intText
  split
  · have := IntText.minus _ _ (uintText_natText h)
    have e : (-(v.natAbs : Int)) = v := by omega
    rwa [e] at this
  · have := IntText.plain _ _ (uintText_natText h)
    have e : (v.natAbs : Int) = v := by omega
    rwa [e] at this

theorem regText_regText {r : Int} (h : ValidReg r) : RegText (regText r) r :=
  .intro _ _ (intText_intText (by omega))

theorem intText_toInt (w : Word) : IntText (intText w.toInt) w.toInt :=
  intText_intText (by have := toInt_range w; omega)

theorem uintText_toNat (w : Word) : UIntText (natText w.toNat) w.toNat :=
  uintText_natText (by have := w.isLt; omega)

theorem natDigits_length (fuel n : Nat) : (natDigits fuel n).length ≤ fuel := by
  induction fuel generalizing n with
  | zero => simp [natDigits]
  | succ fuel ih =>
    rw [natDigits]
    split
    · simp
    · simpa using ih (n / 10)

theorem natText_length (n : Nat) : (natText n).length ≤ 10 := natDigits_length 10 n

theorem intText_length (v : Int) : (intText v).length ≤ 11 := by
  unfold intText
  have := natText_length v.natAbs
  split <;> simp <;> omega

theorem regText_length (r : Int) : (regText r).length ≤ 12 := by
  have := intText_length r
  simp [regText]
  omega

end Sys2Proof
end

