-- ==== Sys2Proof/Laws/Decode.lean ====
section
/-! SUPPORT. Sys2Proof/Laws/Decode.lean: what the split and each operand parser of the Decoder accept, in both directions
(spec/40_decoder.md R93 to R101, R105). -/

namespace Sys2Proof

/-- The three delimiters of R100 were found, and nothing stands after the last. -/
theorem memFields_some {ops a b d} (h : memFields ops = some (a, b, d)) :
    ops = a ++ 0x2C#8 :: (b ++ 0x28#8 :: (d ++ [0x29#8])) := by
  unfold memFields at h
  split at h
  · cases h
  · next h1 =>
    split at h
    · cases h
    · next h2 =>
      split at h
      · cases h
      · next h3 =>
        split at h
        · next ht => cases h; rw [cutAt_eq_some h1, cutAt_eq_some h2, cutAt_eq_some h3, ht]
        · cases h

/-- A sequence of two checks succeeds when each does. -/
theorem except_bind_ok {ε α β} {x : Except ε α} {f : α → Except ε β} {r} (h : x >>= f = .ok r) :
    ∃ a, x = .ok a ∧ f a = .ok r := by
  cases x with
  | error e => cases h
  | ok a => exact ⟨a, rfl, h⟩

/-- What the three-register parser accepts is three register texts in range (R97). -/
theorem threeRegs_ok {mk ops i} (h : threeRegs mk ops = .ok i) : ∃ f0 f1 f2 rd rs rt,
    ops = f0 ++ 0x2C#8 :: (f1 ++ 0x2C#8 :: f2) ∧ RegText f0 rd ∧ RegText f1 rs ∧ RegText f2 rt ∧
    ValidReg rd ∧ ValidReg rs ∧ ValidReg rt ∧ i = mk rd rs rt := by
  unfold threeRegs at h
  split at h
  · next f0 f1 f2 hs =>
    obtain ⟨rd, h0, h⟩ := except_bind_ok h
    obtain ⟨rs, h1, h⟩ := except_bind_ok h
    obtain ⟨rt, h2, h⟩ := except_bind_ok h
    cases h
    rw [parseReg_iff] at h0 h1 h2
    exact ⟨f0, f1, f2, rd, rs, rt, splitCommas_three hs, h0.1, h1.1, h2.1, h0.2, h1.2, h2.2, rfl⟩
  · cases h

/-- What the immediate parser accepts (R99). -/
theorem twoRegsImm_ok {mk ops i} (h : twoRegsImm mk ops = .ok i) : ∃ f0 f1 f2 rt rs imm,
    ops = f0 ++ 0x2C#8 :: (f1 ++ 0x2C#8 :: f2) ∧ RegText f0 rt ∧ RegText f1 rs ∧ IntText f2 (BitVec.toInt imm) ∧
    ValidReg rt ∧ ValidReg rs ∧ i = mk rs rt imm := by
  unfold twoRegsImm at h
  split at h
  · next f0 f1 f2 hs =>
    obtain ⟨rd, h0, h⟩ := except_bind_ok h
    obtain ⟨rs, h1, h⟩ := except_bind_ok h
    obtain ⟨rt, h2, h⟩ := except_bind_ok h
    cases h
    rw [parseReg_iff] at h0 h1
    rw [parseImm_iff] at h2
    exact ⟨f0, f1, f2, rd, rs, rt, splitCommas_three hs, h0.1, h1.1, h2, h0.2, h1.2, rfl⟩
  · cases h

/-- What the load/store parser accepts (R100). -/
theorem memForm_ok {mk ops i} (h : memForm mk ops = .ok i) : ∃ f0 f1 f2 rt rs imm,
    ops = f0 ++ 0x2C#8 :: (f1 ++ 0x28#8 :: (f2 ++ [0x29#8])) ∧ RegText f0 rt ∧
    IntText f1 (BitVec.toInt imm) ∧ RegText f2 rs ∧
    ValidReg rt ∧ ValidReg rs ∧ i = mk rs rt imm := by
  unfold memForm at h
  split at h
  · cases h
  · next f0 f1 f2 hs =>
    obtain ⟨rd, h0, h⟩ := except_bind_ok h
    obtain ⟨rs, h1, h⟩ := except_bind_ok h
    obtain ⟨rt, h2, h⟩ := except_bind_ok h
    cases h
    rw [parseReg_iff] at h0 h2
    rw [parseImm_iff] at h1
    exact ⟨f0, f1, f2, rd, rt, rs, memFields_some hs, h0.1, h1, h2.1, h0.2, h2.2, rfl⟩

/-- What an operand parser accepts is operand text of a well-formed Instruction of its operation. -/
theorem parseOperands_ok {o ops i} (h : parseOperands o ops = .ok i) :
    OperandText ops i ∧ i.wellFormed = true ∧ i.op = o := by
  cases o <;> simp only [parseOperands] at h
  all_goals first
    | (obtain ⟨f0,f1,f2,rd,rs,rt,rfl,h0,h1,h2,v0,v1,v2,rfl⟩ := threeRegs_ok h
       exact ⟨by constructor <;> assumption, by simp [Instr.wellFormed, *], rfl⟩)
    | (obtain ⟨f0,f1,f2,rd,rs,rt,rfl,h0,h1,h2,v0,v1,rfl⟩ := twoRegsImm_ok h
       exact ⟨by constructor <;> assumption, by simp [Instr.wellFormed, *], rfl⟩)
    | (obtain ⟨f0,f1,f2,rd,rs,rt,rfl,h0,h1,h2,v0,v1,rfl⟩ := memForm_ok h
       exact ⟨by constructor <;> assumption, by simp [Instr.wellFormed, *], rfl⟩)
    | (obtain ⟨rs,h0,h⟩ := except_bind_ok h
       cases h
       rw [parseReg_iff] at h0
       exact ⟨by constructor; exact h0.1, by simp [Instr.wellFormed, h0.2], rfl⟩)
    | (obtain ⟨rs,h0,h⟩ := except_bind_ok h
       cases h
       rw [parseAddr_iff] at h0
       exact ⟨by constructor; exact h0, by simp [Instr.wellFormed], rfl⟩)

theorem comma_not_mem_reg {f r} (h : RegText f r) : (0x2C#8 : Chr) ∉ f := fun hm => by
  rcases h.chars _ hm with h | h | h <;> revert h <;> decide

theorem lparen_not_mem_int {f r} (h : IntText f r) : (0x28#8 : Chr) ∉ f := fun hm => by
  rcases h.chars _ hm with h | h <;> revert h <;> decide

theorem comma_not_mem_int {f r} (h : IntText f r) : (0x2C#8 : Chr) ∉ f := fun hm => by
  rcases h.chars _ hm with h | h <;> revert h <;> decide

theorem rparen_not_mem_reg {f r} (h : RegText f r) : (0x29#8 : Chr) ∉ f := fun hm => by
  rcases h.chars _ hm with h | h | h <;> revert h <;> decide

/-- Three fields without a comma, split again (R95). -/
theorem splitCommas_fields {f0 f1 f2 : Line} (h0 : (0x2C#8 : Chr) ∉ f0) (h1 : (0x2C#8 : Chr) ∉ f1)
    (h2 : (0x2C#8 : Chr) ∉ f2) :
    splitCommas (f0 ++ 0x2C#8 :: (f1 ++ 0x2C#8 :: f2)) = [f0, f1, f2] := by
  rw [splitCommas_append _ h0, splitCommas_append _ h1, splitCommas_of_not_mem h2]

/-- The three-register parser accepts three register texts in range (R97). -/
theorem threeRegs_text {mk f0 f1 f2 rd rs rt} (h0 : RegText f0 rd) (h1 : RegText f1 rs) (h2 : RegText f2 rt)
    (hv : ValidReg rd ∧ ValidReg rs ∧ ValidReg rt) :
    threeRegs mk (f0 ++ 0x2C#8 :: (f1 ++ 0x2C#8 :: f2)) = .ok (mk rd rs rt) := by
  unfold threeRegs
  rw [splitCommas_fields (comma_not_mem_reg h0) (comma_not_mem_reg h1) (comma_not_mem_reg h2)]
  simp only [h0.parse, h1.parse, h2.parse, if_pos hv.1, if_pos hv.2.1, if_pos hv.2.2]; rfl

/-- The immediate parser accepts its operand text (R99). -/
theorem twoRegsImm_text {mk f0 f1 f2 rs rt} {imm : Word} (h0 : RegText f0 rt) (h1 : RegText f1 rs)
    (h2 : IntText f2 imm.toInt) (hv : ValidReg rs ∧ ValidReg rt) :
    twoRegsImm mk (f0 ++ 0x2C#8 :: (f1 ++ 0x2C#8 :: f2)) = .ok (mk rs rt imm) := by
  unfold twoRegsImm
  rw [splitCommas_fields (comma_not_mem_reg h0) (comma_not_mem_reg h1) (comma_not_mem_int h2)]
  simp only [h0.parse, h1.parse, parseImm_iff.2 h2, if_pos hv.1, if_pos hv.2]; rfl

/-- The load/store parser accepts its operand text (R100). -/
theorem memForm_text {mk f0 f1 f2 rs rt} {imm : Word} (h0 : RegText f0 rt) (h1 : IntText f1 imm.toInt)
    (h2 : RegText f2 rs) (hv : ValidReg rs ∧ ValidReg rt) :
    memForm mk (f0 ++ 0x2C#8 :: (f1 ++ 0x28#8 :: (f2 ++ [0x29#8]))) = .ok (mk rs rt imm) := by
  unfold memForm memFields
  rw [cutAt_append _ (comma_not_mem_reg h0)]
  simp only [cutAt_append _ (lparen_not_mem_int h1), cutAt_append _ (rparen_not_mem_reg h2), if_true]
  simp only [h0.parse, h2.parse, parseImm_iff.2 h1, if_pos hv.1, if_pos hv.2]; rfl

/-- Operand text of a well-formed Instruction is accepted by the parser of its operation. -/
theorem parseOperands_text {ops i} (h : OperandText ops i) (hw : i.wellFormed = true) :
    parseOperands i.op ops = .ok i := by
  cases h with
  | add | sub | and | or | slt =>
    exact threeRegs_text (by assumption) (by assumption) (by assumption) (by simpa [Instr.wellFormed] using hw)
  | addi | beq =>
    exact twoRegsImm_text (by assumption) (by assumption) (by assumption) (by simpa [Instr.wellFormed] using hw)
  | lw | sw =>
    exact memForm_text (by assumption) (by assumption) (by assumption) (by simpa [Instr.wellFormed] using hw)
  | jr f0 rs h0 =>
    have hv : ValidReg rs := by simpa [Instr.wellFormed] using hw
    simp only [Instr.op, parseOperands, oneReg, h0.parse, if_pos hv]; rfl
  | j => rename_i h0; simp only [Instr.op, parseOperands, jumpForm, parseAddr_iff.2 h0]; rfl
  | jal => rename_i h0; simp only [Instr.op, parseOperands, jumpForm, parseAddr_iff.2 h0]; rfl

/-- The decoder and the grammar mean the same whitespace (R72). -/
theorem isSpace_iff {c} : isSpace c = true ↔ IsSpace c := by simp [isSpace]

theorem isSpace_of_digit {c} (h : isDigit c = true) : isSpace c = false := by
  obtain ⟨d, rfl, -⟩ := eq_digitChr h
  revert d; decide

theorem head_of_intText {f v} (h : IntText f v) : ∃ c t, f = c :: t ∧ isSpace c = false := by
  cases h with
  | plain t n h => 
    cases f with
    | nil => exact absurd rfl h.digits.1
    | cons c t => exact ⟨c, t, rfl, isSpace_of_digit (h.digits.2 c (by simp))⟩
  | minus t n h => exact ⟨_, _, rfl, by decide⟩

/-- Operand text does not start with whitespace, so the separator run ends before it. -/
theorem head_of_operandText {ops i} (h : OperandText ops i) : ∃ c t, ops = c :: t ∧ isSpace c = false := by
  cases h with
  | j f0 a h | jal f0 a h => exact head_of_intText (.plain _ _ h)
  | add _ _ _ _ _ _ h0 | sub _ _ _ _ _ _ h0 | and _ _ _ _ _ _ h0 | or _ _ _ _ _ _ h0 | slt _ _ _ _ _ _ h0
  | jr _ _ h0 | addi _ _ _ _ _ _ h0 | beq _ _ _ _ _ _ h0 | lw _ _ _ _ _ _ h0 | sw _ _ _ _ _ _ h0 =>
    obtain ⟨t, r, h⟩ := h0; exact ⟨_, _, rfl, by decide⟩

theorem takeWhile_mnemonic {m : Line} {c : Chr} (t : Line) (hm : ∀ c ∈ m, isSpace c = false)
    (hc : isSpace c = true) :
    ((m ++ c :: t).takeWhile fun c => !isSpace c) = m ∧ ((m ++ c :: t).dropWhile fun c => !isSpace c) = c :: t := by
  induction m with
  | nil => simp [hc]
  | cons a m ih => simp [hm a (by simp), ih (fun c h => hm c (by simp [h]))]

theorem dropWhile_spaces {ws : Line} (ops : Line) (h : ∀ c ∈ ws, isSpace c = true) :
    (ws ++ ops).dropWhile isSpace = ops.dropWhile isSpace := by
  induction ws with
  | nil => rfl
  | cons a m ih => simp [h a (by simp), ih (fun c hc => h c (by simp [hc]))]

/-- The split of a mnemonic, a whitespace run and what follows it (R93). -/
theorem splitWs_text {m ws : Line} (ops : Line) (hm0 : m ≠ []) (hm : ∀ c ∈ m, isSpace c = false) (hw0 : ws ≠ [])
    (hw : ∀ c ∈ ws, IsSpace c) :
    splitWs (m ++ (ws ++ ops)) =
      if ops.dropWhile isSpace = [] then .error .parameterError else .ok (m, ops.dropWhile isSpace) := by
  obtain ⟨c, ws', e⟩ := List.exists_cons_of_ne_nil hw0
  subst e
  have hw' : ∀ x ∈ c :: ws', isSpace x = true := fun x hx => isSpace_iff.2 (hw x hx)
  obtain ⟨h1, h2⟩ := takeWhile_mnemonic (ws' ++ ops) hm (hw' c (by simp))
  have h3 := dropWhile_spaces ops hw'
  simp only [splitWs, List.cons_append] at *
  rw [h1, h2, h3]
  simp [hm0]

theorem mnemonic_no_space (o : Op) : o.mnemonic ≠ [] ∧ ∀ c ∈ o.mnemonic, isSpace c = false := by
  cases o <;> exact ⟨by decide, by decide⟩

/-- A failed split is the result of the decode, whatever the length (R92, R93). -/
theorem decodeLine_of_split_error {l : Line} (h : splitWs l = .error .parameterError) :
    decodeLine l = .error .parameterError := by
  unfold decodeLine
  split
  · rfl
  · rw [h]

/-- Each mnemonic selects its operation (R94). -/
theorem opOfMnemonic_mnemonic (o : Op) : opOfMnemonic o.mnemonic = some o := by cases o <;> decide

/-- Nothing but the mnemonic selects an operation (R94). -/
theorem opOfMnemonic_some {m o} (h : opOfMnemonic m = some o) : m = o.mnemonic := by
  have := List.find?_some h
  simpa using (beq_iff_eq.1 this).symm

/-- A short enough line of mnemonic, whitespace run and operands is decided by its operand parser (R105). -/
theorem decodeLine_of_mnemonic {o : Op} {ws ops : Line} {c t} (ho : ops = c :: t) (hc : isSpace c = false)
    (hw0 : ws ≠ []) (hw : ∀ c ∈ ws, IsSpace c) (hl : (o.mnemonic ++ (ws ++ ops)).length ≤ 99) :
    decodeLine (o.mnemonic ++ (ws ++ ops)) = parseOperands o ops := by
  unfold decodeLine
  rw [if_neg (by simp only [Config.maxLine]; omega),
    splitWs_text ops (mnemonic_no_space o).1 (mnemonic_no_space o).2 hw0 hw]
  have : ops.dropWhile isSpace = ops := by simp [ho, hc]
  rw [this, if_neg (by simp [ho])]
  simp only [opOfMnemonic_mnemonic]

/-- What the split answers, put together again, is the line (R93). -/
theorem splitWs_ok {l m ops} (h : splitWs l = .ok (m, ops)) :
    ∃ ws, ws ≠ [] ∧ (∀ c ∈ ws, IsSpace c) ∧ l = m ++ (ws ++ ops) := by
  unfold splitWs at h
  simp only at h
  split at h
  · cases h
  · next hn =>
    push Not at hn
    cases h
    set r := l.dropWhile (fun c => !isSpace c) with hr
    have e1 : l.takeWhile (fun c => !isSpace c) ++ r = l := List.takeWhile_append_dropWhile
    have e2 : r.takeWhile isSpace ++ r.dropWhile isSpace = r := List.takeWhile_append_dropWhile
    refine ⟨r.takeWhile isSpace, ?_, ?_, by rw [e2, e1]⟩
    · intro h0
      cases hr' : r with
      | nil => rw [hr'] at hn; exact hn.2 rfl
      | cons c t =>
        have : ¬ (!isSpace c) = true := by
          have := List.head_dropWhile_not (p := fun c => !isSpace c) (l := l) (by rw [← hr, hr']; simp)
          simp only [← hr, hr', List.head_cons] at this
          simpa using this
        rw [hr'] at h0
        simp at this
        simp [this] at h0
    · intro c hc
      exact isSpace_iff.1 (List.mem_takeWhile_imp hc)

end Sys2Proof
end

