-- ==== Sys2Proof/Laws/State.lean ====
section
/-! SUPPORT. Sys2Proof/Laws/State.lean: one lemma per field per update, and what the accessors read after an update. -/

namespace Sys2Proof.Machine.State

variable (s : State) (i r : Reg) (v t : Word) (a : MemIndex) (k : Nat) (c : CallResult)

@[simp] theorem setPc_regs : (s.setPc t).regs = s.regs := rfl
@[simp] theorem setPc_pc : (s.setPc t).pc = t := rfl
@[simp] theorem setPc_mem : (s.setPc t).mem = s.mem := rfl
@[simp] theorem setPc_calls : (s.setPc t).calls = s.calls := rfl
@[simp] theorem setPc_result : (s.setPc t).result = s.result := rfl

@[simp] theorem setRegister_pc : (s.setRegister i v).pc = s.pc := by unfold setRegister; split <;> rfl
@[simp] theorem setRegister_mem : (s.setRegister i v).mem = s.mem := by unfold setRegister; split <;> rfl
@[simp] theorem setRegister_calls : (s.setRegister i v).calls = s.calls := by unfold setRegister; split <;> rfl
@[simp] theorem setRegister_result : (s.setRegister i v).result = s.result := by unfold setRegister; split <;> rfl

@[simp] theorem storeWord_regs : (s.storeWord a v).regs = s.regs := rfl
@[simp] theorem storeWord_pc : (s.storeWord a v).pc = s.pc := rfl
@[simp] theorem storeWord_mem : (s.storeWord a v).mem = s.mem.write a.val v := rfl
@[simp] theorem storeWord_calls : (s.storeWord a v).calls = s.calls := rfl
@[simp] theorem storeWord_result : (s.storeWord a v).result = s.result := rfl

@[simp] theorem advanceBy_regs : (s.advanceBy k).regs = s.regs := rfl
@[simp] theorem advanceBy_mem : (s.advanceBy k).mem = s.mem := rfl
@[simp] theorem advanceBy_calls : (s.advanceBy k).calls = s.calls := rfl
@[simp] theorem advanceBy_result : (s.advanceBy k).result = s.result := rfl

/-- The advance is addition of 32-bit words: `wrap32u` of the exact sum (R126). -/
@[simp] theorem advanceBy_pc : (s.advanceBy k).pc = s.pc + BitVec.ofNat 32 k := by
  apply BitVec.eq_of_toNat_eq
  simp only [advanceBy, setPc_pc, wrap32, BitVec.toNat_ofInt, BitVec.toNat_add, BitVec.toNat_ofNat]
  omega

@[simp] theorem returnValue_regs : (s.returnValue c).regs = s.regs := rfl
@[simp] theorem returnValue_pc : (s.returnValue c).pc = s.pc := rfl
@[simp] theorem returnValue_mem : (s.returnValue c).mem = s.mem := rfl
@[simp] theorem returnValue_calls : (s.returnValue c).calls = s.calls := rfl
@[simp] theorem returnValue_result : (s.returnValue c).result = some c := rfl

@[simp] theorem returnOk_regs : s.returnOk.regs = s.regs := rfl
@[simp] theorem returnOk_pc : s.returnOk.pc = s.pc := rfl
@[simp] theorem returnOk_mem : s.returnOk.mem = s.mem := rfl
@[simp] theorem returnOk_calls : s.returnOk.calls = s.calls := rfl
@[simp] theorem returnOk_result : s.returnOk.result = some (.executed (.ok ())) := rfl

variable (e : ExecError)

@[simp] theorem returnErr_regs : (s.returnErr e).regs = s.regs := rfl
@[simp] theorem returnErr_pc : (s.returnErr e).pc = s.pc := rfl
@[simp] theorem returnErr_mem : (s.returnErr e).mem = s.mem := rfl
@[simp] theorem returnErr_calls : (s.returnErr e).calls = s.calls := rfl
@[simp] theorem returnErr_result : (s.returnErr e).result = some (.executed (.error e)) := rfl

/-! The accessors read only their own field. -/

theorem register_congr {s t : State} (h : t.regs = s.regs) (r : Reg) : t.register r = s.register r := by
  simp only [register, h]

theorem memory_congr {s t : State} (h : t.mem = s.mem) (a : MemIndex) : t.memory a = s.memory a := by
  simp only [memory, h]

@[simp] theorem register_setPc : (s.setPc t).register r = s.register r := rfl
@[simp] theorem register_storeWord : (s.storeWord a v).register r = s.register r := rfl
@[simp] theorem register_advanceBy : (s.advanceBy k).register r = s.register r := rfl
@[simp] theorem register_returnOk : s.returnOk.register r = s.register r := rfl
@[simp] theorem register_returnErr : (s.returnErr e).register r = s.register r := rfl

/-- Register 0 reads 0; a written register reads the value; every other register reads as before (R22). -/
theorem register_setRegister :
    (s.setRegister i v).register r = if r = i ∧ r ≠ 0 then v else s.register r := by
  unfold register setRegister
  by_cases hr : r.val = 0
  · have : r = 0 := Fin.ext hr
    simp [this]
  · by_cases hi : i.val = 0
    · have hne : r ≠ i := fun h => hr (h ▸ hi)
      simp [hr, hi, hne]
    · have hr' : r ≠ 0 := fun h => hr (by simp [h])
      by_cases h : r = i
      · subst h; simp [hr, hr']
      · have hv : i.val - 1 ≠ r.val - 1 := fun hh => h (Fin.ext (by omega))
        simp [hr, hi, h, hv]

end Sys2Proof.Machine.State
end

