-- ==== Sys2Proof/Laws/Memory.lean ====
section
/-! SUPPORT. Sys2Proof/Laws/Memory.lean: the memory operations keep the canonical form, a read after a write gives the
value written, and a write leaves every other word alone (spec/20_memory.md R45). -/

namespace Sys2Proof.Machine.Memory

theorem wfFrom_cons {lo b : Nat} {u : Word} {m : Memory} :
    wfFrom lo ((b, u) :: m) = true ↔ lo ≤ b ∧ b < 1024 ∧ u ≠ 0#32 ∧ wfFrom (b + 1) m = true := by
  simp [wfFrom, Config.memWords, and_assoc]

theorem wfFrom_mono {lo lo' : Nat} (h : lo' ≤ lo) : ∀ {m : Memory}, m.wfFrom lo = true → m.wfFrom lo' = true
  | [], _ => rfl
  | (b, u) :: m, hm => by
    rw [wfFrom_cons] at hm ⊢
    exact ⟨by omega, hm.2⟩

/-- Below its first index a canonical memory reads 0. -/
theorem read_below : ∀ {m : Memory} {lo a : Nat}, m.wfFrom lo = true → a < lo → m.read a = 0#32
  | [], _, _, _, _ => rfl
  | (b, u) :: m, lo, a, hm, ha => by
    rw [wfFrom_cons] at hm
    simp only [read]
    rw [if_neg (by omega)]
    exact read_below hm.2.2.2 (by omega)

theorem wfFrom_write : ∀ {m : Memory} {lo a : Nat} {v : Word},
    m.wfFrom lo = true → lo ≤ a → a < 1024 → (m.write a v).wfFrom lo = true
  | [], lo, a, v, _, hlo, ha => by
    simp only [write]
    split
    · rfl
    · exact wfFrom_cons.2 ⟨hlo, ha, by assumption, rfl⟩
  | (b, u) :: m, lo, a, v, hm, hlo, ha => by
    have hm' := wfFrom_cons.1 hm
    simp only [write]
    split
    · split
      · exact hm
      · exact wfFrom_cons.2 ⟨hlo, ha, by assumption, wfFrom_cons.2 ⟨by omega, hm'.2⟩⟩
    · split
      · split
        · exact wfFrom_mono (by omega) hm'.2.2.2
        · exact wfFrom_cons.2 ⟨hlo, ha, by assumption, wfFrom_mono (by omega) hm'.2.2.2⟩
      · exact wfFrom_cons.2 ⟨hm'.1, hm'.2.1, hm'.2.2.1, wfFrom_write hm'.2.2.2 (by omega) ha⟩

/-- A write keeps the canonical form. -/
theorem wf_write {m : Memory} {v : Word} (a : MemIndex) (h : m.wf = true) : (m.write a.val v).wf = true :=
  wfFrom_write h (Nat.zero_le _) a.isLt

/-- What every word reads after a write to a canonical memory (R45). -/
theorem read_write : ∀ {m : Memory} {lo : Nat} (a b : Nat) (v : Word), m.wfFrom lo = true →
    (m.write a v).read b = if b = a then v else m.read b
  | [], _, a, b, v, _ => by
    by_cases hv : v = 0#32 <;> by_cases hb : b = a <;> simp [write, read, hv, hb]
  | (c, u) :: m, lo, a, b, v, hm => by
    have hm' := wfFrom_cons.1 hm
    simp only [write]
    split
    · next hac =>
      split
      · next hv =>
        by_cases hb : b = a
        · rw [if_pos hb, hb, hv]
          exact read_below (wfFrom_cons.2 ⟨Nat.le_refl c, hm'.2⟩) hac
        · rw [if_neg hb]
      · simp only [read]
    · next hac =>
      split
      · next hc =>
        split
        · next hv =>
          by_cases hb : b = a
          · rw [if_pos hb, hb, hv]
            exact read_below hm'.2.2.2 (by omega)
          · rw [if_neg hb]
            simp only [read]
            rw [if_neg (by omega)]
        · simp only [read]
          by_cases hb : b = a
          · simp [hb]
          · rw [if_neg hb, if_neg hb, if_neg (by omega)]
      · next hc =>
        simp only [read]
        rw [read_write a b v hm'.2.2.2]
        by_cases hb : b = c
        · rw [if_pos hb, if_neg (by omega), if_pos hb]
        · rw [if_neg hb, if_neg hb]

/-- The memory after reset is in canonical form. -/
theorem wf_reset : State.reset.mem.wf = true := rfl

end Sys2Proof.Machine.Memory

namespace Sys2Proof.Machine.State

/-- The words of a state after a store (R45, R152). -/
theorem memory_storeWord {s : State} (h : s.mem.wf = true) (a b : MemIndex) (v : Word) :
    (s.storeWord a v).memory b = if b = a then v else s.memory b := by
  simp only [memory, storeWord_mem, Memory.read_write a.val b.val v h, Fin.ext_iff]

end Sys2Proof.Machine.State
end

