-- ==== Sys2Proof/Laws/Ops.lean ====
section
/-! SUPPORT. Sys2Proof/Laws/Ops.lean: one lemma per shared operation that says once what it does, and the inversion
lemma of `exec`: the shapes a next state can have. -/

namespace Sys2Proof.Machine

theorem validReg_num (r : Reg) : ValidReg r.num := by
  have := r.isLt
  constructor <;> simp only [Reg.num] <;> omega

/-- A valid register field names the register of its number. -/
@[simp] theorem regOf_num (r : Reg) : regOf r.num = some r := by
  unfold regOf
  rw [dif_pos (validReg_num r)]
  simp [Reg.num]

/-- The register check passes exactly on the numbers of registers. -/
theorem regOf_eq_some {r : Int} {k : Reg} : regOf r = some k ↔ r = k.num := by
  constructor
  · intro h
    unfold regOf at h
    split at h
    · next hv => cases h; simp only [Reg.num]; omega
    · cases h
  · rintro rfl
    exact regOf_num k

theorem regOf_eq_none {r : Int} : regOf r = none ↔ ¬ ValidReg r := by
  unfold regOf
  split <;> simp_all

@[simp] theorem num_inj {r k : Reg} : r.num = k.num ↔ r = k := by
  simp only [Reg.num, Fin.ext_iff]
  omega

/-- The address test passes exactly on the indices of words. -/
theorem memIndexOf_eq_some {z : Int} {a : MemIndex} : memIndexOf z = some a ↔ z = (a.val : Int) := by
  unfold memIndexOf
  constructor
  · intro h
    split at h
    · cases h; simp only; omega
    · cases h
  · rintro rfl
    have := a.isLt
    rw [dif_pos (by constructor <;> omega)]
    simp

theorem memIndexOf_eq_none {z : Int} : memIndexOf z = none ↔ ¬ ValidMemAddr z := by
  unfold memIndexOf
  split <;> simp_all

/-- `wrap32` does nothing to a value that is in range (R9, R136). -/
theorem toInt_wrap32 {m : Int} (h : ¬ Overflow m) : (wrap32 m).toInt = m := by
  simp only [Overflow, Config.intMax, Config.intMin] at h
  simp only [wrap32, BitVec.toInt_ofInt, Int.bmod]
  omega

/-- The pc a transfer sets is its target. -/
theorem toNat_wrap32_target {t : Int} (h : ValidTarget t) : ((wrap32 t).toNat : Int) = t := by
  obtain ⟨h0, h1, -⟩ := h
  simp only [Config.pcLimit] at h1
  simp only [wrap32, BitVec.toNat_ofInt]
  omega

theorem withReg_num (r : Reg) (s : State) (body : Reg → State) : withReg r.num s body = .next (body r) := by
  simp [withReg]

theorem withRegs2_num (a b : Reg) (s : State) (body : Reg → Reg → State) :
    withRegs2 a.num b.num s body = .next (body a b) := by
  simp [withRegs2]

theorem withRegs3_num (d a b : Reg) (s : State) (body : Reg → Reg → Reg → State) :
    withRegs3 d.num a.num b.num s body = .next (body d a b) := by
  simp [withRegs3]

theorem withReg_cases (r : Int) (s : State) (body : Reg → State) :
    (∃ a : Reg, r = a.num ∧ withReg r s body = .next (body a)) ∨
    (¬ ValidReg r ∧ withReg r s body = .next (s.returnErr .registerError)) := by
  unfold withReg
  cases h : regOf r with
  | some a => exact .inl ⟨a, regOf_eq_some.1 h, rfl⟩
  | none => exact .inr ⟨regOf_eq_none.1 h, rfl⟩

theorem withRegs2_cases (r q : Int) (s : State) (body : Reg → Reg → State) :
    (∃ a b : Reg, r = a.num ∧ q = b.num ∧ withRegs2 r q s body = .next (body a b)) ∨
    (¬ (ValidReg r ∧ ValidReg q) ∧ withRegs2 r q s body = .next (s.returnErr .registerError)) := by
  unfold withRegs2
  cases h : regOf r with
  | none => exact .inr ⟨fun hv => regOf_eq_none.1 h hv.1, rfl⟩
  | some a =>
    cases h' : regOf q with
    | none => exact .inr ⟨fun hv => regOf_eq_none.1 h' hv.2, rfl⟩
    | some b => exact .inl ⟨a, b, regOf_eq_some.1 h, regOf_eq_some.1 h', rfl⟩

theorem withRegs3_cases (p r q : Int) (s : State) (body : Reg → Reg → Reg → State) :
    (∃ d a b : Reg, p = d.num ∧ r = a.num ∧ q = b.num ∧ withRegs3 p r q s body = .next (body d a b)) ∨
    (¬ (ValidReg p ∧ ValidReg r ∧ ValidReg q) ∧ withRegs3 p r q s body = .next (s.returnErr .registerError)) := by
  unfold withRegs3
  cases h : regOf p with
  | none => exact .inr ⟨fun hv => regOf_eq_none.1 h hv.1, rfl⟩
  | some d =>
    cases h' : regOf r with
    | none => exact .inr ⟨fun hv => regOf_eq_none.1 h' hv.2.1, rfl⟩
    | some a =>
      cases h'' : regOf q with
      | none => exact .inr ⟨fun hv => regOf_eq_none.1 h'' hv.2.2, rfl⟩
      | some b => exact .inl ⟨d, a, b, regOf_eq_some.1 h, regOf_eq_some.1 h', regOf_eq_some.1 h'', rfl⟩

namespace State

theorem checkedWriteBack_cases (s : State) (d : Reg) (m : Int) :
    (Overflow m ∧ s.checkedWriteBack d m = (s.advanceBy overflowPcStep).returnErr .overflowError) ∨
    (¬ Overflow m ∧ s.checkedWriteBack d m = s.writeBack d (wrap32 m)) := by
  unfold checkedWriteBack
  split
  · next h => exact .inl ⟨h, rfl⟩
  · next h => exact .inr ⟨h, rfl⟩

theorem withMemIndex_cases (s : State) (z : Int) (access : MemIndex → State) :
    (∃ a : MemIndex, z = (a.val : Int) ∧ s.withMemIndex z access = access a) ∨
    (¬ ValidMemAddr z ∧ s.withMemIndex z access = s.returnErr .memoryError) := by
  unfold withMemIndex
  cases h : memIndexOf z with
  | some a => exact .inl ⟨a, memIndexOf_eq_some.1 h, rfl⟩
  | none => exact .inr ⟨memIndexOf_eq_none.1 h, rfl⟩

theorem transfer_cases (s : State) (t : Int) (commit : State → State) :
    (ValidTarget t ∧ s.transfer t commit = ((commit s).setPc (wrap32 t)).returnOk) ∨
    (¬ ValidTarget t ∧ s.transfer t commit = s.returnErr .memoryError) := by
  unfold transfer
  split
  · next h => exact .inl ⟨h, rfl⟩
  · next h => exact .inr ⟨h, rfl⟩

theorem transfer_ok (s : State) {t : Int} (commit : State → State) (h : ValidTarget t) :
    s.transfer t commit = ((commit s).setPc (wrap32 t)).returnOk := if_pos h

theorem transfer_err (s : State) {t : Int} (commit : State → State) (h : ¬ ValidTarget t) :
    s.transfer t commit = s.returnErr .memoryError := if_neg h

theorem withMemIndex_ok (s : State) {z : Int} {a : MemIndex} (access : MemIndex → State) (h : z = (a.val : Int)) :
    s.withMemIndex z access = access a := by
  simp [withMemIndex, memIndexOf_eq_some.2 h]

theorem withMemIndex_err (s : State) {z : Int} (access : MemIndex → State) (h : ¬ ValidMemAddr z) :
    s.withMemIndex z access = s.returnErr .memoryError := by
  simp [withMemIndex, memIndexOf_eq_none.2 h]

@[simp] theorem writeBack_pc (s : State) (d : Reg) (v : Word) : (s.writeBack d v).pc = s.pc + 4#32 := by
  simp [writeBack, Config.isize]
@[simp] theorem writeBack_mem (s : State) (d : Reg) (v : Word) : (s.writeBack d v).mem = s.mem := by simp [writeBack]
@[simp] theorem writeBack_calls (s : State) (d : Reg) (v : Word) : (s.writeBack d v).calls = s.calls := by
  simp [writeBack]
@[simp] theorem writeBack_result (s : State) (d : Reg) (v : Word) :
    (s.writeBack d v).result = some (.executed (.ok ())) := rfl

theorem writeBack_writes (s : State) (d : Reg) (v : Word) : WritesRegister s (s.writeBack d v) d v := fun r => by
  simp only [writeBack, register_returnOk, register_advanceBy, register_setRegister]

end State

/-! ## Two runs of one operation

If the ends of an operation are related by `P` in two states, so are its next states: for claims that compare runs. -/

section TwoRuns

variable {s s' t t' : State} {P : State → State → Prop}

theorem withReg_rel {r : Int} {f f' : Reg → State} (hf : ∀ a, r = a.num → P (f a) (f' a))
    (he : P (s.returnErr .registerError) (s'.returnErr .registerError))
    (h : withReg r s f = .next t) (h' : withReg r s' f' = .next t') : P t t' := by
  unfold withReg at h h'
  cases hr : regOf r with
  | some a => rw [hr] at h h'; cases h; cases h'; exact hf a (regOf_eq_some.1 hr)
  | none => rw [hr] at h h'; cases h; cases h'; exact he

theorem withRegs2_rel {r q : Int} {f f' : Reg → Reg → State}
    (hf : ∀ a b, r = a.num → q = b.num → P (f a b) (f' a b))
    (he : P (s.returnErr .registerError) (s'.returnErr .registerError))
    (h : withRegs2 r q s f = .next t) (h' : withRegs2 r q s' f' = .next t') : P t t' := by
  unfold withRegs2 at h h'
  cases hr : regOf r with
  | none => simp only [hr] at h h'; cases h; cases h'; exact he
  | some a =>
    cases hq : regOf q with
    | none => simp only [hr, hq] at h h'; cases h; cases h'; exact he
    | some b =>
      simp only [hr, hq] at h h'
      cases h; cases h'
      exact hf a b (regOf_eq_some.1 hr) (regOf_eq_some.1 hq)

theorem withRegs3_rel {p r q : Int} {f f' : Reg → Reg → Reg → State}
    (hf : ∀ d a b, p = d.num → r = a.num → q = b.num → P (f d a b) (f' d a b))
    (he : P (s.returnErr .registerError) (s'.returnErr .registerError))
    (h : withRegs3 p r q s f = .next t) (h' : withRegs3 p r q s' f' = .next t') : P t t' := by
  unfold withRegs3 at h h'
  cases hp : regOf p with
  | none => simp only [hp] at h h'; cases h; cases h'; exact he
  | some d =>
    cases hr : regOf r with
    | none => simp only [hp, hr] at h h'; cases h; cases h'; exact he
    | some a =>
      cases hq : regOf q with
      | none => simp only [hp, hr, hq] at h h'; cases h; cases h'; exact he
      | some b =>
        simp only [hp, hr, hq] at h h'
        cases h; cases h'
        exact hf d a b (regOf_eq_some.1 hp) (regOf_eq_some.1 hr) (regOf_eq_some.1 hq)

theorem checkedWriteBack_rel {d : Reg} {m : Int}
    (hw : P (s.writeBack d (wrap32 m)) (s'.writeBack d (wrap32 m)))
    (ho : P ((s.advanceBy overflowPcStep).returnErr .overflowError)
      ((s'.advanceBy overflowPcStep).returnErr .overflowError)) :
    P (s.checkedWriteBack d m) (s'.checkedWriteBack d m) := by
  unfold State.checkedWriteBack
  split
  · exact ho
  · exact hw

theorem withMemIndex_rel {z : Int} {f f' : MemIndex → State} (hf : ∀ a, P (f a) (f' a))
    (he : P (s.returnErr .memoryError) (s'.returnErr .memoryError)) :
    P (s.withMemIndex z f) (s'.withMemIndex z f') := by
  unfold State.withMemIndex
  split
  · exact hf _
  · exact he

theorem transfer_rel {z : Int} {c c' : State → State}
    (hc : P (((c s).setPc (wrap32 z)).returnOk) (((c' s').setPc (wrap32 z)).returnOk))
    (he : P (s.returnErr .memoryError) (s'.returnErr .memoryError)) :
    P (s.transfer z c) (s'.transfer z c') := by
  unfold State.transfer
  split
  · exact hc
  · exact he

end TwoRuns

/-- The shapes of a next state: what a step can do, said once. -/
inductive Shape (i : Instr) (s : State) : State → Prop where
  /-- The register check failed (R123). -/
  | badRegister (h : ∃ r ∈ i.meaningfulRegs, ¬ ValidReg r) : Shape i s (s.returnErr .registerError)
  /-- The address or target test failed (R150, R160). -/
  | badAddress (hv : ∀ r ∈ i.meaningfulRegs, ValidReg r) (h : .memoryError ∈ i.op.errors) :
      Shape i s (s.returnErr .memoryError)
  /-- ADD, SUB or ADDI overflowed (R128). -/
  | overflow (hv : ∀ r ∈ i.meaningfulRegs, ValidReg r) (h : i.op = .add ∨ i.op = .sub ∨ i.op = .addi) :
      Shape i s ((s.advanceBy overflowPcStep).returnErr .overflowError)
  /-- A destination register was written and pc advanced (R126, R130). -/
  | wrote (hv : ∀ r ∈ i.meaningfulRegs, ValidReg r) (d : Reg) (v : Word) (h : i.destination = some d.num)
      (hj : i.op ≠ .jal) : Shape i s (s.writeBack d v)
  /-- SW stored a word (R152). -/
  | stored (hv : ∀ r ∈ i.meaningfulRegs, ValidReg r) (a : MemIndex) (v : Word) (h : i.op = .sw) :
      Shape i s (((s.storeWord a v).advanceBy Config.isize).returnOk)
  /-- BEQ was not taken (R163). -/
  | untaken (hv : ∀ r ∈ i.meaningfulRegs, ValidReg r)
      (h : ∃ (a b : Reg) (imm : Word), i = .beq a.num b.num imm ∧ s.register a ≠ s.register b) :
      Shape i s ((s.advanceBy Config.isize).returnOk)
  /-- A control transfer without a link set pc (R127). -/
  | transferred (hv : ∀ r ∈ i.meaningfulRegs, ValidReg r) (t : Int) (ht : ValidTarget t)
      (h : i.op = .jr ∨ i.op = .j ∨
        ∃ (a b : Reg) (imm : Word), i = .beq a.num b.num imm ∧ s.register a = s.register b) :
      Shape i s ((s.setPc (wrap32 t)).returnOk)
  /-- JAL wrote the link and set pc (R167). -/
  | linked (t : Int) (ht : ValidTarget t) (h : i.op = .jal) :
      Shape i s (((s.setRegister Config.linkReg (wrap32 ((s.pc.toNat : Int) + 4))).setPc (wrap32 t)).returnOk)

theorem valid_all (l : List Reg) : ∀ r ∈ l.map Reg.num, ValidReg r := by
  intro r hr
  obtain ⟨k, -, rfl⟩ := List.mem_map.1 hr
  exact validReg_num k

theorem exists_bad2 {r q : Int} (h : ¬ (ValidReg r ∧ ValidReg q)) : ∃ x ∈ [r, q], ¬ ValidReg x := by
  by_contra hc
  push Not at hc
  exact h ⟨hc r (by simp), hc q (by simp)⟩

theorem exists_bad3 {p r q : Int} (h : ¬ (ValidReg p ∧ ValidReg r ∧ ValidReg q)) :
    ∃ x ∈ [p, r, q], ¬ ValidReg x := by
  by_contra hc
  push Not at hc
  exact h ⟨hc p (by simp), hc r (by simp), hc q (by simp)⟩

theorem Shape.checked {i : Instr} {s : State} {d : Reg} (m : Int) (hv : ∀ r ∈ i.meaningfulRegs, ValidReg r)
    (hd : i.destination = some d.num) (ho : i.op = .add ∨ i.op = .sub ∨ i.op = .addi) :
    Shape i s (s.checkedWriteBack d m) := by
  obtain ⟨-, e⟩ | ⟨-, e⟩ := s.checkedWriteBack_cases d m
  · rw [e]; exact .overflow hv ho
  · rw [e]; exact .wrote hv d _ hd (by rcases ho with h | h | h <;> rw [h] <;> decide)

theorem execAdd_shape (rd rs rt : Int) (s : State) :
    ∃ t, execAdd rd rs rt s = .next t ∧ Shape (.add rd rs rt) s t := by
  unfold execAdd
  obtain ⟨d, a, b, rfl, rfl, rfl, h⟩ | ⟨hv, h⟩ := withRegs3_cases rd rs rt s _
  · exact ⟨_, h, .checked _ (by exact valid_all [d, a, b]) rfl (.inl rfl)⟩
  · exact ⟨_, h, .badRegister (exists_bad3 hv)⟩

theorem execSub_shape (rd rs rt : Int) (s : State) :
    ∃ t, execSub rd rs rt s = .next t ∧ Shape (.sub rd rs rt) s t := by
  unfold execSub
  obtain ⟨d, a, b, rfl, rfl, rfl, h⟩ | ⟨hv, h⟩ := withRegs3_cases rd rs rt s _
  · exact ⟨_, h, .checked _ (by exact valid_all [d, a, b]) rfl (.inr (.inl rfl))⟩
  · exact ⟨_, h, .badRegister (exists_bad3 hv)⟩

theorem execAnd_shape (rd rs rt : Int) (s : State) :
    ∃ t, execAnd rd rs rt s = .next t ∧ Shape (.and rd rs rt) s t := by
  unfold execAnd
  obtain ⟨d, a, b, rfl, rfl, rfl, h⟩ | ⟨hv, h⟩ := withRegs3_cases rd rs rt s _
  · exact ⟨_, h, .wrote (by exact valid_all [d, a, b]) d _ rfl (by simp [Instr.op])⟩
  · exact ⟨_, h, .badRegister (exists_bad3 hv)⟩

theorem execOr_shape (rd rs rt : Int) (s : State) :
    ∃ t, execOr rd rs rt s = .next t ∧ Shape (.or rd rs rt) s t := by
  unfold execOr
  obtain ⟨d, a, b, rfl, rfl, rfl, h⟩ | ⟨hv, h⟩ := withRegs3_cases rd rs rt s _
  · exact ⟨_, h, .wrote (by exact valid_all [d, a, b]) d _ rfl (by simp [Instr.op])⟩
  · exact ⟨_, h, .badRegister (exists_bad3 hv)⟩

theorem execSlt_shape (rd rs rt : Int) (s : State) :
    ∃ t, execSlt rd rs rt s = .next t ∧ Shape (.slt rd rs rt) s t := by
  unfold execSlt
  obtain ⟨d, a, b, rfl, rfl, rfl, h⟩ | ⟨hv, h⟩ := withRegs3_cases rd rs rt s _
  · exact ⟨_, h, .wrote (by exact valid_all [d, a, b]) d _ rfl (by simp [Instr.op])⟩
  · exact ⟨_, h, .badRegister (exists_bad3 hv)⟩

theorem execAddi_shape (rs rt : Int) (imm : Word) (s : State) :
    ∃ t, execAddi rs rt imm s = .next t ∧ Shape (.addi rs rt imm) s t := by
  unfold execAddi
  obtain ⟨a, d, rfl, rfl, h⟩ | ⟨hv, h⟩ := withRegs2_cases rs rt s _
  · exact ⟨_, h, .checked _ (by exact valid_all [a, d]) rfl (.inr (.inr rfl))⟩
  · exact ⟨_, h, .badRegister (exists_bad2 hv)⟩

theorem execLw_shape (rs rt : Int) (imm : Word) (s : State) :
    ∃ t, execLw rs rt imm s = .next t ∧ Shape (.lw rs rt imm) s t := by
  unfold execLw
  obtain ⟨b, d, rfl, rfl, h⟩ | ⟨hv, h⟩ := withRegs2_cases rs rt s _
  · refine ⟨_, h, ?_⟩
    obtain ⟨a, -, e⟩ | ⟨-, e⟩ := s.withMemIndex_cases (effectiveAddress (s.register b) imm) _
    · rw [e]; exact .wrote (by exact valid_all [b, d]) d _ rfl (by simp [Instr.op])
    · rw [e]; exact .badAddress (by exact valid_all [b, d]) (by simp [Instr.op, Op.errors])
  · exact ⟨_, h, .badRegister (exists_bad2 hv)⟩

theorem execSw_shape (rs rt : Int) (imm : Word) (s : State) :
    ∃ t, execSw rs rt imm s = .next t ∧ Shape (.sw rs rt imm) s t := by
  unfold execSw
  obtain ⟨b, d, rfl, rfl, h⟩ | ⟨hv, h⟩ := withRegs2_cases rs rt s _
  · refine ⟨_, h, ?_⟩
    obtain ⟨a, -, e⟩ | ⟨-, e⟩ := s.withMemIndex_cases (effectiveAddress (s.register b) imm) _
    · rw [e]; exact .stored (by exact valid_all [b, d]) a _ rfl
    · rw [e]; exact .badAddress (by exact valid_all [b, d]) (by simp [Instr.op, Op.errors])
  · exact ⟨_, h, .badRegister (exists_bad2 hv)⟩

theorem execJr_shape (rd rs rt : Int) (s : State) :
    ∃ t, execJr rd rs rt s = .next t ∧ Shape (.jr rd rs rt) s t := by
  unfold execJr
  obtain ⟨a, rfl, h⟩ | ⟨hv, h⟩ := withReg_cases rs s _
  · refine ⟨_, h, ?_⟩
    obtain ⟨ht, e⟩ | ⟨-, e⟩ := s.transfer_cases (registerTarget (s.register a)) id
    · rw [e]; exact .transferred (by exact valid_all [a]) _ ht (.inl rfl)
    · rw [e]; exact .badAddress (by exact valid_all [a]) (by simp [Instr.op, Op.errors])
  · exact ⟨_, h, .badRegister ⟨rs, by simp [Instr.meaningfulRegs], hv⟩⟩

theorem execBeq_shape (rs rt : Int) (imm : Word) (s : State) :
    ∃ t, execBeq rs rt imm s = .next t ∧ Shape (.beq rs rt imm) s t := by
  unfold execBeq
  obtain ⟨a, b, rfl, rfl, h⟩ | ⟨hv, h⟩ := withRegs2_cases rs rt s _
  · refine ⟨_, h, ?_⟩
    split
    · next heq =>
      obtain ⟨ht, e⟩ | ⟨-, e⟩ := s.transfer_cases (branchTarget s.pc imm) id
      · rw [e]; exact .transferred (by exact valid_all [a, b]) _ ht (.inr (.inr ⟨a, b, imm, rfl, heq⟩))
      · rw [e]; exact .badAddress (by exact valid_all [a, b]) (by simp [Instr.op, Op.errors])
    · next hne => exact .untaken (by exact valid_all [a, b]) ⟨a, b, imm, rfl, hne⟩
  · exact ⟨_, h, .badRegister (exists_bad2 hv)⟩

theorem execJ_shape (address : Word) (s : State) : ∃ t, execJ address s = .next t ∧ Shape (.j address) s t := by
  refine ⟨_, rfl, ?_⟩
  obtain ⟨ht, e⟩ | ⟨-, e⟩ := s.transfer_cases (jumpTarget address) id
  · rw [e]; exact .transferred (by exact valid_all []) _ ht (.inr (.inl rfl))
  · rw [e]; exact .badAddress (by exact valid_all []) (by simp [Instr.op, Op.errors])

theorem execJal_shape (address : Word) (s : State) :
    ∃ t, execJal address s = .next t ∧ Shape (.jal address) s t := by
  refine ⟨_, rfl, ?_⟩
  obtain ⟨ht, e⟩ | ⟨-, e⟩ := s.transfer_cases (jumpTarget address) _
  · rw [e]; exact .linked _ ht rfl
  · rw [e]; exact .badAddress (by exact valid_all []) (by simp [Instr.op, Op.errors])

/-- Every Instruction on every state gives a next state of one of the shapes (R120, R121). -/
theorem exec_shape (i : Instr) (s : State) : ∃ t, exec i s = .next t ∧ Shape i s t := by
  cases i with
  | add rd rs rt => exact execAdd_shape rd rs rt s
  | sub rd rs rt => exact execSub_shape rd rs rt s
  | and rd rs rt => exact execAnd_shape rd rs rt s
  | or rd rs rt => exact execOr_shape rd rs rt s
  | slt rd rs rt => exact execSlt_shape rd rs rt s
  | jr rd rs rt => exact execJr_shape rd rs rt s
  | addi rs rt imm => exact execAddi_shape rs rt imm s
  | beq rs rt imm => exact execBeq_shape rs rt imm s
  | lw rs rt imm => exact execLw_shape rs rt imm s
  | sw rs rt imm => exact execSw_shape rs rt imm s
  | j address => exact execJ_shape address s
  | jal address => exact execJal_shape address s

/-- The inversion lemma: a next state of `exec` has one of the shapes. -/
theorem shape_of_exec {i : Instr} {s t : State} (h : exec i s = .next t) : Shape i s t := by
  obtain ⟨u, hu, hs⟩ := exec_shape i s
  rw [h] at hu
  cases hu
  exact hs

end Sys2Proof.Machine
end

