-- ==== Sys2Proof/Laws/PerInstr.lean ====
section
/-! SUPPORT. Sys2Proof/Laws/PerInstr.lean: statements made per instruction. `LineLength`: the line the encoder writes for
an Instruction is short enough to be decoded (spec/30_encoding.md R77). -/

namespace Sys2Proof.Laws.LineLength

/-- The encoder's line passes the length guard. -/
def Statement (i : Instr) : Prop := (encodeLine i).length ≤ Config.maxLine

theorem mnemonic_length (o : Op) : o.mnemonic.length ≤ 4 := by
  cases o <;> decide

theorem length_le {i : Instr} (h : (operandText i).length ≤ 94) : Statement i := by
  have := mnemonic_length i.op
  simp only [Statement, encodeLine, List.length_append, List.length_cons, Config.maxLine]
  omega

theorem threeRegs_le (p r q : Int) :
    (regText p ++ 0x2C#8 :: (regText r ++ 0x2C#8 :: regText q)).length ≤ 94 := by
  have := regText_length p
  have := regText_length r
  have := regText_length q
  simp only [List.length_append, List.length_cons]
  omega

theorem twoRegsImm_le (r q v : Int) :
    (regText q ++ 0x2C#8 :: (regText r ++ 0x2C#8 :: intText v)).length ≤ 94 := by
  have := regText_length q
  have := regText_length r
  have := intText_length v
  simp only [List.length_append, List.length_cons]
  omega

theorem memForm_le (r q v : Int) :
    (regText q ++ 0x2C#8 :: (intText v ++ 0x28#8 :: (regText r ++ [0x29#8]))).length ≤ 94 := by
  have := regText_length q
  have := regText_length r
  have := intText_length v
  simp only [List.length_append, List.length_cons, List.length_nil]
  omega

theorem add (rd rs rt : Int) : Statement (.add rd rs rt) := length_le (threeRegs_le rd rs rt)
theorem sub (rd rs rt : Int) : Statement (.sub rd rs rt) := length_le (threeRegs_le rd rs rt)
theorem and (rd rs rt : Int) : Statement (.and rd rs rt) := length_le (threeRegs_le rd rs rt)
theorem or (rd rs rt : Int) : Statement (.or rd rs rt) := length_le (threeRegs_le rd rs rt)
theorem slt (rd rs rt : Int) : Statement (.slt rd rs rt) := length_le (threeRegs_le rd rs rt)
theorem jr (rd rs rt : Int) : Statement (.jr rd rs rt) :=
  length_le (by have := regText_length rs; simp only [operandText]; omega)
theorem addi (rs rt : Int) (imm : Word) : Statement (.addi rs rt imm) := length_le (twoRegsImm_le rs rt imm.toInt)
theorem beq (rs rt : Int) (imm : Word) : Statement (.beq rs rt imm) := length_le (twoRegsImm_le rs rt imm.toInt)
theorem lw (rs rt : Int) (imm : Word) : Statement (.lw rs rt imm) := length_le (memForm_le rs rt imm.toInt)
theorem sw (rs rt : Int) (imm : Word) : Statement (.sw rs rt imm) := length_le (memForm_le rs rt imm.toInt)
theorem j (address : Word) : Statement (.j address) :=
  length_le (by have := natText_length address.toNat; simp only [operandText]; omega)
theorem jal (address : Word) : Statement (.jal address) :=
  length_le (by have := natText_length address.toNat; simp only [operandText]; omega)

end Sys2Proof.Laws.LineLength
end

