-- ==== Sys2Proof/Laws/Words.lean ====
section
/-! SUPPORT. Sys2Proof/Laws/Words.lean: the fields of a machine word taken apart and put together (spec/30_encoding.md R70;
the layout is from general knowledge, log 6). -/

namespace Sys2Proof

/-! ## A word is its fields -/

theorem wordR_fields (w : Word) :
    (w.extractLsb' 26 6 ++ w.extractLsb' 21 5 ++ w.extractLsb' 16 5 ++ w.extractLsb' 11 5 ++ w.extractLsb' 6 5 ++
      w.extractLsb' 0 6 : BitVec 32) = w := by
  ext i hi
  simp only [BitVec.getElem_append, BitVec.getElem_extractLsb']
  repeat' split
  all_goals first | (rw [← BitVec.getLsbD_eq_getElem]; congr 1; omega)

theorem wordI_fields (w : Word) :
    (w.extractLsb' 26 6 ++ w.extractLsb' 21 5 ++ w.extractLsb' 16 5 ++ w.extractLsb' 0 16 : BitVec 32) = w := by
  ext i hi
  simp only [BitVec.getElem_append, BitVec.getElem_extractLsb']
  repeat' split
  all_goals first | (rw [← BitVec.getLsbD_eq_getElem]; congr 1; omega)

theorem wordJ_fields (w : Word) : (w.extractLsb' 26 6 ++ w.extractLsb' 0 26 : BitVec 32) = w := by
  ext i hi
  simp only [BitVec.getElem_append, BitVec.getElem_extractLsb']
  repeat' split
  all_goals first | (rw [← BitVec.getLsbD_eq_getElem]; congr 1; omega)

/-- Words are equal when their R-format fields are. -/
theorem word_ext {v w : Word} (h1 : v.extractLsb' 26 6 = w.extractLsb' 26 6) (h2 : v.extractLsb' 21 5 = w.extractLsb' 21 5)
    (h3 : v.extractLsb' 16 5 = w.extractLsb' 16 5) (h4 : v.extractLsb' 11 5 = w.extractLsb' 11 5)
    (h5 : v.extractLsb' 6 5 = w.extractLsb' 6 5) (h6 : v.extractLsb' 0 6 = w.extractLsb' 0 6) : v = w := by
  rw [← wordR_fields v, ← wordR_fields w, h1, h2, h3, h4, h5, h6]

/-! ## Register fields -/

/-- A register field read from a word is in range (R65). -/
theorem validReg_regField (w : Word) (lo : Nat) : ValidReg (regField w lo) := by
  have := (w.extractLsb' lo 5).isLt
  simp only [regField]
  constructor <;> omega

theorem regBits_regField (w : Word) (lo : Nat) : regBits (regField w lo) = w.extractLsb' lo 5 := by
  simp only [regBits, regField]
  rw [BitVec.ofInt_natCast, BitVec.ofNat_toNat, BitVec.setWidth_eq]

theorem toNat_regBits {r : Int} (h : ValidReg r) : ((regBits r).toNat : Int) = r := by
  simp only [regBits, BitVec.toNat_ofInt]
  omega

/-! ## Immediates and addresses -/

theorem immField_range (w : Word) : -32768 ≤ (immField w).toInt ∧ (immField w).toInt ≤ 32767 := by
  simp only [immField]
  rw [BitVec.toInt_signExtend_of_le (by omega)]
  have := BitVec.toInt_lt (x := w.extractLsb' 0 16)
  have := BitVec.le_toInt (x := w.extractLsb' 0 16)
  omega

theorem addrField_range (w : Word) : (addrField w).toNat ≤ 67108863 := by
  simp only [addrField, BitVec.toNat_setWidth]
  have := (w.extractLsb' 0 26).isLt
  omega

/-- An immediate that fits is recovered from its sixteen bits. -/
theorem signExtend_immediate {imm : Word} (h : -32768 ≤ imm.toInt ∧ imm.toInt ≤ 32767) :
    (imm.extractLsb' 0 16).signExtend 32 = imm := by
  apply BitVec.eq_of_toInt_eq
  rw [BitVec.toInt_signExtend_of_le (by omega), BitVec.toInt_eq_toNat_bmod, BitVec.extractLsb'_toNat]
  rw [BitVec.toInt_eq_toNat_bmod] at *
  have := imm.isLt
  simp only [Int.bmod, Nat.shiftRight_zero] at *
  omega

/-- An address that fits is recovered from its twenty-six bits. -/
theorem setWidth_address {a : Word} (h : a.toNat ≤ 67108863) : (a.extractLsb' 0 26).setWidth 32 = a := by
  apply BitVec.eq_of_toNat_eq
  rw [BitVec.toNat_setWidth, BitVec.extractLsb'_toNat]
  simp
  omega

/-! ## A decoded word is put together again -/

theorem wordR_regFields {w : Word} {fn : BitVec 6} (h1 : w.extractLsb' 26 6 = 0#6) (h2 : w.extractLsb' 6 5 = 0#5)
    (h3 : w.extractLsb' 0 6 = fn) : wordR (regField w 21) (regField w 16) (regField w 11) fn = w := by
  simp only [wordR, regBits_regField]
  rw [← h2, ← h3, ← h1]
  exact wordR_fields w

theorem wordI_regFields {w : Word} {op : BitVec 6} (h : w.extractLsb' 26 6 = op) :
    wordI op (regField w 21) (regField w 16) (immField w) = w := by
  simp only [wordI, regBits_regField]
  have : (immField w).extractLsb' 0 16 = w.extractLsb' 0 16 := by
    ext i hi
    simp [immField, BitVec.getLsbD_signExtend, hi]
    intros
    omega
  rw [this, ← h]
  exact wordI_fields w

theorem wordJ_addrField {w : Word} {op : BitVec 6} (h : w.extractLsb' 26 6 = op) : wordJ op (addrField w) = w := by
  simp only [wordJ]
  have : (addrField w).extractLsb' 0 26 = w.extractLsb' 0 26 := by
    ext i hi
    simp [addrField, hi]
    intros
    omega
  rw [this, ← h]
  exact wordJ_fields w

/-- Fifteen zero bits 20:6 are three zero fields. -/
theorem zero_fields_of_jr {w : Word} (h : w.extractLsb' 6 15 = 0#15) :
    w.extractLsb' 6 5 = 0#5 ∧ w.extractLsb' 11 5 = 0#5 ∧ w.extractLsb' 16 5 = 0#5 := by
  have bit : ∀ k, k < 15 → w.getLsbD (6 + k) = false := by
    intro k hk
    have := congrArg (fun x => x.getLsbD k) h
    simpa [hk] using this
  refine ⟨?_, ?_, ?_⟩ <;> ext i hi <;> simp only [BitVec.getElem_extractLsb']
  · simpa using bit i (by omega)
  · have := bit (5 + i) (by omega)
    rw [← Nat.add_assoc] at this
    simpa using this
  · have := bit (10 + i) (by omega)
    rw [← Nat.add_assoc] at this
    simpa using this

/-- Three zero fields are fifteen zero bits 20:6. -/
theorem jr_of_zero_fields {w : Word} (h1 : w.extractLsb' 6 5 = 0#5) (h2 : w.extractLsb' 11 5 = 0#5)
    (h3 : w.extractLsb' 16 5 = 0#5) : w.extractLsb' 6 15 = 0#15 := by
  have bit : ∀ lo, w.extractLsb' lo 5 = 0#5 → ∀ k, k < 5 → w.getLsbD (lo + k) = false := by
    intro lo h k hk
    have := congrArg (fun x => x.getLsbD k) h
    simpa [hk] using this
  ext i hi
  simp only [BitVec.getElem_extractLsb', BitVec.getElem_zero]
  by_cases h5 : i < 5
  · exact bit 6 h1 i h5
  · by_cases h10 : i < 10
    · have := bit 11 h2 (i - 5) (by omega)
      rwa [show 11 + (i - 5) = 6 + i by omega] at this
    · have := bit 16 h3 (i - 10) (by omega)
      rwa [show 16 + (i - 10) = 6 + i by omega] at this

/-! ## The fields of an encoded word -/

theorem fields_wordR (rs rt rd : Int) (fn : BitVec 6) :
    (wordR rs rt rd fn).extractLsb' 26 6 = 0#6 ∧ (wordR rs rt rd fn).extractLsb' 21 5 = regBits rs ∧
    (wordR rs rt rd fn).extractLsb' 16 5 = regBits rt ∧ (wordR rs rt rd fn).extractLsb' 11 5 = regBits rd ∧
    (wordR rs rt rd fn).extractLsb' 6 5 = 0#5 ∧ (wordR rs rt rd fn).extractLsb' 0 6 = fn := by
  unfold wordR
  refine ⟨?_, ?_, ?_, ?_, ?_, ?_⟩
  all_goals
    ext i hi
    simp only [BitVec.getElem_extractLsb', BitVec.getLsbD_append]
    repeat' split
  all_goals first | omega | (rw [BitVec.getLsbD_eq_getElem (by omega)]; congr 1; omega)

theorem fields_wordI (op : BitVec 6) (rs rt : Int) (imm : Word) :
    (wordI op rs rt imm).extractLsb' 26 6 = op ∧ (wordI op rs rt imm).extractLsb' 21 5 = regBits rs ∧
    (wordI op rs rt imm).extractLsb' 16 5 = regBits rt ∧
    (wordI op rs rt imm).extractLsb' 0 16 = imm.extractLsb' 0 16 := by
  unfold wordI
  refine ⟨?_, ?_, ?_, ?_⟩
  all_goals
    ext i hi
    simp only [BitVec.getElem_extractLsb', BitVec.getLsbD_append]
    repeat' split
  all_goals first | omega | (rw [BitVec.getLsbD_eq_getElem (by omega)]; congr 1; omega) |
    (simp [BitVec.getLsbD_extractLsb']; try omega)

theorem fields_wordJ (op : BitVec 6) (a : Word) :
    (wordJ op a).extractLsb' 26 6 = op ∧ (wordJ op a).extractLsb' 0 26 = a.extractLsb' 0 26 := by
  unfold wordJ
  refine ⟨?_, ?_⟩
  all_goals
    ext i hi
    simp only [BitVec.getElem_extractLsb', BitVec.getLsbD_append]
    repeat' split
  all_goals first | omega | (rw [BitVec.getLsbD_eq_getElem (by omega)]; congr 1; omega) |
    (simp [BitVec.getLsbD_extractLsb']; try omega)

/-! ## The rows of the opcode table as conditions on fields -/

theorem extractLsb'_and' (v w : Word) (lo n : Nat) :
    (v &&& w).extractLsb' lo n = v.extractLsb' lo n &&& w.extractLsb' lo n := by
  ext i hi
  simp

/-- The mask of a three-register row keeps the opcode, bits 10:6 and the function code. -/
theorem match_rowR (w : Word) (fn : BitVec 6) :
    w &&& 0xFC0007FF#32 = fn.setWidth 32 ↔
      w.extractLsb' 26 6 = 0#6 ∧ w.extractLsb' 6 5 = 0#5 ∧ w.extractLsb' 0 6 = fn := by
  have hf : (fn.setWidth 32).extractLsb' 26 6 = 0#6 ∧ (fn.setWidth 32).extractLsb' 21 5 = 0#5 ∧
      (fn.setWidth 32).extractLsb' 16 5 = 0#5 ∧ (fn.setWidth 32).extractLsb' 11 5 = 0#5 ∧
      (fn.setWidth 32).extractLsb' 6 5 = 0#5 ∧ (fn.setWidth 32).extractLsb' 0 6 = fn := by
    revert fn
    decide
  obtain ⟨f1, f2, f3, f4, f5, f6⟩ := hf
  have m1 : (0xFC0007FF#32).extractLsb' 26 6 = BitVec.allOnes 6 := by decide
  have m5 : (0xFC0007FF#32).extractLsb' 6 5 = BitVec.allOnes 5 := by decide
  have m6 : (0xFC0007FF#32).extractLsb' 0 6 = BitVec.allOnes 6 := by decide
  have z2 : (0xFC0007FF#32).extractLsb' 21 5 = 0#5 := by decide
  have z3 : (0xFC0007FF#32).extractLsb' 16 5 = 0#5 := by decide
  have z4 : (0xFC0007FF#32).extractLsb' 11 5 = 0#5 := by decide
  constructor
  · intro h
    have e : ∀ lo n, w.extractLsb' lo n &&& (0xFC0007FF#32).extractLsb' lo n = (fn.setWidth 32).extractLsb' lo n :=
      fun lo n => by rw [← extractLsb'_and', h]
    have e1 := e 26 6
    have e5 := e 6 5
    have e6 := e 0 6
    rw [m1, BitVec.and_allOnes, f1] at e1
    rw [m5, BitVec.and_allOnes, f5] at e5
    rw [m6, BitVec.and_allOnes, f6] at e6
    exact ⟨e1, e5, e6⟩
  · rintro ⟨h1, h5, h6⟩
    apply word_ext <;> rw [extractLsb'_and']
    · rw [m1, h1, f1]; decide
    · rw [z2, f2, BitVec.and_zero]
    · rw [z3, f3, BitVec.and_zero]
    · rw [z4, f4, BitVec.and_zero]
    · rw [m5, h5, f5]; decide
    · rw [m6, h6, f6, BitVec.and_allOnes]

/-- The mask of the `jr` row keeps everything but rs. -/
theorem match_rowJr (w : Word) :
    w &&& 0xFC1FFFFF#32 = 0x00000008#32 ↔
      w.extractLsb' 26 6 = 0#6 ∧ w.extractLsb' 6 15 = 0#15 ∧ w.extractLsb' 0 6 = 0x08#6 := by
  have m1 : (0xFC1FFFFF#32).extractLsb' 26 6 = BitVec.allOnes 6 := by decide
  have m5 : (0xFC1FFFFF#32).extractLsb' 6 15 = BitVec.allOnes 15 := by decide
  have m6 : (0xFC1FFFFF#32).extractLsb' 0 6 = BitVec.allOnes 6 := by decide
  constructor
  · intro h
    have e : ∀ lo n, w.extractLsb' lo n &&& (0xFC1FFFFF#32).extractLsb' lo n = (0x00000008#32).extractLsb' lo n :=
      fun lo n => by rw [← extractLsb'_and', h]
    have e1 := e 26 6
    have e5 := e 6 15
    have e6 := e 0 6
    rw [m1, BitVec.and_allOnes] at e1
    rw [m5, BitVec.and_allOnes] at e5
    rw [m6, BitVec.and_allOnes] at e6
    exact ⟨e1, e5, e6⟩
  · rintro ⟨h1, h5, h6⟩
    obtain ⟨z1, z2, z3⟩ := zero_fields_of_jr h5
    have c : (0xFC1FFFFF#32).extractLsb' 21 5 = 0#5 := by decide
    apply word_ext <;> rw [extractLsb'_and']
    · rw [h1]; decide
    · rw [c, BitVec.and_zero]; decide
    · rw [z3]; decide
    · rw [z2]; decide
    · rw [z1]; decide
    · rw [h6]; decide

/-- The mask of an I or J row keeps the opcode alone. -/
theorem match_rowOpcode (w : Word) (op : BitVec 6) :
    w &&& 0xFC000000#32 = op.setWidth 32 <<< 26 ↔ w.extractLsb' 26 6 = op := by
  have hf : (op.setWidth 32 <<< 26).extractLsb' 26 6 = op ∧ (op.setWidth 32 <<< 26).extractLsb' 21 5 = 0#5 ∧
      (op.setWidth 32 <<< 26).extractLsb' 16 5 = 0#5 ∧ (op.setWidth 32 <<< 26).extractLsb' 11 5 = 0#5 ∧
      (op.setWidth 32 <<< 26).extractLsb' 6 5 = 0#5 ∧ (op.setWidth 32 <<< 26).extractLsb' 0 6 = 0#6 := by
    revert op
    decide
  obtain ⟨f1, f2, f3, f4, f5, f6⟩ := hf
  have m1 : (0xFC000000#32).extractLsb' 26 6 = BitVec.allOnes 6 := by decide
  have z : ∀ lo, lo ∈ [6, 11, 16, 21] → (0xFC000000#32).extractLsb' lo 5 = 0#5 := by decide
  have z6 : (0xFC000000#32).extractLsb' 0 6 = 0#6 := by decide
  constructor
  · intro h
    have e : w.extractLsb' 26 6 &&& (0xFC000000#32).extractLsb' 26 6 = (op.setWidth 32 <<< 26).extractLsb' 26 6 := by
      rw [← extractLsb'_and', h]
    rwa [m1, BitVec.and_allOnes, f1] at e
  · intro h
    apply word_ext <;> rw [extractLsb'_and']
    · rw [m1, h, f1, BitVec.and_allOnes]
    · rw [z 21 (by decide), f2, BitVec.and_zero]
    · rw [z 16 (by decide), f3, BitVec.and_zero]
    · rw [z 11 (by decide), f4, BitVec.and_zero]
    · rw [z 6 (by decide), f5, BitVec.and_zero]
    · rw [z6, f6, BitVec.and_zero]

end Sys2Proof
end

