-- ==== Sys2Proof/Tests/Slice0.lean ====
section
/-! SUPPORT. Sys2Proof/Tests/Slice0.lean: tests of single operations, and a witness for every statement that has
hypotheses. Expected values are those of spec/95_test_vectors.md (which derives its parts 2 and 3 from the rules) unless a
comment says otherwise. -/

namespace Sys2Proof.Tests

open Sys2Proof Sys2Proof.Machine

/-- The reset state with some registers, memory words and a pc. -/
def st (pc : Nat) (regs : List (Reg × Int) := []) (words : List (MemIndex × Int) := []) : State :=
  let s := regs.foldl (fun s p => s.setRegister p.1 (wrap32 p.2)) { State.reset with pc := BitVec.ofNat 32 pc }
  words.foldl (fun s p => s.storeWord p.1 (wrap32 p.2)) s

/-- The next state, if there is one. -/
def nextOf : Host.Outcome State Fault Refusal → Option State
  | .next t => some t
  | .fault _ => none
  | .refused _ => none

/-- What one execution leaves in pc, a register and a memory word, and what it returns. -/
def look (i : Instr) (s : State) (r : Reg) (a : MemIndex) : Option (Nat × Int × Int × Option CallResult) :=
  (nextOf (exec i s)).map fun t => (t.pc.toNat, (t.register r).toInt, (t.memory a).toInt, t.result)

abbrev ok : Option CallResult := some (.executed (.ok ()))
abbrev err (e : ExecError) : Option CallResult := some (.executed (.error e))

/-! ## WellFormed: an ill-formed term for each check (R65, R66, R70) -/

theorem test_rd_out_of_range_refused : (Instr.add 32 1 2).wellFormed = false := by decide
theorem test_rs_negative_refused : (Instr.sub 1 (-1) 2).wellFormed = false := by decide
theorem test_rt_out_of_range_refused : (Instr.and 1 2 32).wellFormed = false ∧ (Instr.or 1 2 32).wellFormed = false ∧
    (Instr.slt 1 2 32).wellFormed = false := by decide
theorem test_jr_extra_fields_refused : (Instr.jr 99 31 0).wellFormed = false ∧ (Instr.jr 0 31 99).wellFormed = false ∧
    (Instr.jr 0 32 0).wellFormed = false := by decide
theorem test_i_format_out_of_range_refused : (Instr.addi 32 1 0#32).wellFormed = false ∧
    (Instr.beq 1 32 0#32).wellFormed = false ∧ (Instr.lw 40 1 5000#32).wellFormed = false ∧
    (Instr.sw 0 (-1) 0#32).wellFormed = false := by decide
theorem test_wide_operand_has_no_word : (Instr.addi 0 1 32768#32).hasWord = false ∧
    (Instr.lw 0 1 (-32769#32)).hasWord = false ∧ (Instr.j 67108864#32).hasWord = false := by decide

/-! ## Words, written out from the encodings of spec/opcode_table.json (rs, rt, rd, immediate, address in place) -/

theorem test_word_add : decodeWord 0b00000000010000110000100000100000#32 = .ok (.add 1 2 3) := by decide
theorem test_word_sub : decodeWord 0b00000000001000100011000000100010#32 = .ok (.sub 6 1 2) := by decide
theorem test_word_and : decodeWord 0b00000000001000100011100000100100#32 = .ok (.and 7 1 2) := by decide
theorem test_word_or : decodeWord 0b00000000001000100100000000100101#32 = .ok (.or 8 1 2) := by decide
theorem test_word_slt : decodeWord 0b00000000001000100010100000101010#32 = .ok (.slt 5 1 2) := by decide
theorem test_word_jr : decodeWord 0b00000011111000000000000000001000#32 = .ok (.jr 0 31 0) := by decide
theorem test_word_addi : decodeWord 0b00100000010000010000000000000001#32 = .ok (.addi 2 1 1#32) := by decide
theorem test_word_beq : decodeWord 0b00010000010000011111111111111111#32 = .ok (.beq 2 1 (-1#32)) := by decide
theorem test_word_lw : decodeWord 0b10001100111000101111111111111101#32 = .ok (.lw 7 2 (-3#32)) := by decide
theorem test_word_sw : decodeWord 0b10101111111000010000001111111111#32 = .ok (.sw 31 1 1023#32) := by decide
theorem test_word_j : decodeWord 0b00001000000000000000010000000000#32 = .ok (.j 1024#32) := by decide
theorem test_word_jal : decodeWord 0b00001100000000000000000000001010#32 = .ok (.jal 10#32) := by decide
/-- Words outside the table: opcode 0x3F, function 0x00, a shift amount, an rd in `jr`. -/
theorem test_words_rejected : decodeWord 0xFC000000#32 = .error .unlistedOpcode ∧
    decodeWord 0x00000000#32 = .error .unlistedFunction ∧ decodeWord 0x00430860#32 = .error .nonzeroField ∧
    decodeWord 0x03E00808#32 = .error .nonzeroField := by decide
theorem test_encode_words : encode (.beq 2 1 (-1#32)) = some 0x1041FFFF#32 ∧ encode (.add 1 2 3) = some 0x00430820#32 ∧
    encode (.addi 0 1 100000#32) = none := by decide

/-! ## Lines (95_test_vectors.md 2.1 and 2.2) -/

theorem test_lines_decode : decodeLine (text "sub $6,$1,$2") = .ok (.sub 6 1 2) ∧
    decodeLine (text "and $7,$1,$2") = .ok (.and 7 1 2) ∧ decodeLine (text "or $8,$1,$2") = .ok (.or 8 1 2) ∧
    decodeLine (text "slt $5,$1,$2") = .ok (.slt 5 1 2) ∧ decodeLine (text "lw $2,-3($7)") = .ok (.lw 7 2 (-3#32)) ∧
    decodeLine (text "j 4294967295") = .ok (.j 4294967295#32) := by decide
theorem test_lines_lexical : decodeLine (text "add $01,$002,$3") = .ok (.add 1 2 3) ∧
    decodeLine (text "add $-0,$1,$2") = .ok (.add 0 1 2) ∧ decodeLine (text "add \t $1,$2,$3") = .ok (.add 1 2 3) ∧
    decodeLine (text "addi $1,$0,-2147483648") = .ok (.addi 0 1 0x80000000#32) := by decide
/-- 99 characters are decoded, 100 are not (D7). -/
theorem test_line_length : decodeLine (text "add" ++ List.replicate 88 0x20#8 ++ text "$1,$2,$3") = .ok (.add 1 2 3) ∧
    decodeLine (text "add" ++ List.replicate 89 0x20#8 ++ text "$1,$2,$3") = .error .parameterError := by decide
theorem test_lines_rejected : decodeLine [] = .error .parameterError ∧
    decodeLine (text " add $1,$2,$3") = .error .parameterError ∧
    decodeLine (text "add $1,$2,$3 ") = .error .parameterError ∧
    decodeLine (text "add $1, $2,$3") = .error .parameterError ∧
    decodeLine (text "ADD $1,$2,$3") = .error .parameterError ∧
    decodeLine (text "addi $1,$0,2147483648") = .error .parameterError ∧
    decodeLine (text "addi $1,$2,+5") = .error .parameterError ∧
    decodeLine (text "lw $2,($0)") = .error .parameterError ∧ decodeLine (text "lw $2,4($0)x") = .error .parameterError ∧
    decodeLine (text "j -1") = .error .parameterError := by decide
/-- The first failing check decides (R103). -/
theorem test_error_order : decodeLine (text "add $40,$2") = .error .parameterError ∧
    decodeLine (text "add $40,$x,$3") = .error .registerError ∧
    decodeLine (text "add $x,$40,$3") = .error .parameterError ∧
    decodeLine (text "addi $1,$40,zz") = .error .registerError ∧
    decodeLine (text "lw $40,4($2") = .error .parameterError ∧ decodeLine (text "lw $40,x($2)") = .error .registerError ∧
    decodeLine (text "lw $1,x($40)") = .error .parameterError := by decide
theorem test_encode_line : encodeLine (.sw 0 1 (-4#32)) = text "sw $1,-4($0)" ∧
    encodeLine (.addi 31 0 0x80000000#32) = text "addi $0,$31,-2147483648" ∧
    encodeLine (.jal 4294967295#32) = text "jal 4294967295" := by decide

/-! ## Instructions (95_test_vectors.md 2.3 to 2.6) -/

theorem test_add_sum : look (.add 1 2 3) (st 0 [(2, 5), (3, 7)]) 1 0 = some (4, 12, 0, ok) := by decide
theorem test_add_overflow : look (.add 1 2 3) (st 8 [(1, 77), (2, 2147483647), (3, 1)]) 1 0 =
    some (12, 77, 0, err .overflowError) := by decide
theorem test_sub_minuend_first : look (.sub 1 2 3) (st 0 [(2, 5), (3, 7)]) 1 0 = some (4, -2, 0, ok) := by decide
theorem test_sub_of_int_min : look (.sub 1 2 3) (st 0 [(3, -2147483648)]) 1 0 = some (4, 0, 0, err .overflowError) := by
  decide
theorem test_and_negative : look (.and 1 2 3) (st 0 [(2, -4), (3, 6)]) 1 0 = some (4, 4, 0, ok) := by decide
theorem test_or_negative : look (.or 1 2 3) (st 0 [(2, -4), (3, 1)]) 1 0 = some (4, -3, 0, ok) := by decide
theorem test_slt_signed : look (.slt 1 2 3) (st 0 [(2, -1)]) 1 0 = some (4, 1, 0, ok) := by decide
theorem test_slt_extremes : look (.slt 1 2 3) (st 0 [(1, 9), (2, 2147483647), (3, -2147483648)]) 1 0 =
    some (4, 0, 0, ok) := by decide
theorem test_addi_wide_immediate : look (.addi 2 1 100000#32) (st 0 [(2, 1)]) 1 0 = some (4, 100001, 0, ok) := by decide
theorem test_addi_overflow_into_zero : look (.addi 1 0 1#32) (st 0 [(1, 2147483647)]) 0 0 =
    some (4, 0, 0, err .overflowError) := by decide
theorem test_lw_same_register : look (.lw 7 7 0#32) (st 0 [(7, 3)] [(3, 11)]) 7 3 = some (4, 11, 11, ok) := by decide
theorem test_lw_address_does_not_wrap : look (.lw 7 2 0x80000000#32) (st 0 [(2, 5), (7, -2147483648)]) 2 0 =
    some (0, 5, 0, err .memoryError) := by decide
theorem test_sw_top_word : look (.sw 0 1 1023#32) (st 0 [(1, -2147483648)]) 1 1023 =
    some (4, -2147483648, -2147483648, ok) := by decide
theorem test_sw_first_bad_index : look (.sw 0 1 1024#32) (st 12 [(1, 1)]) 1 1023 = some (12, 1, 0, err .memoryError) := by
  decide
theorem test_jr_extra_fields_ignored : look (.jr 99 31 99) (st 20 [(31, 8)]) 31 0 = some (8, 8, 0, ok) := by decide
theorem test_jr_misaligned : look (.jr 0 5 0) (st 16 [(5, 6)]) 5 0 = some (16, 6, 0, err .memoryError) := by decide
theorem test_beq_from_current_pc : look (.beq 2 1 4#32) (st 8 [(1, 3), (2, 3)]) 1 0 = some (24, 3, 0, ok) := by decide
theorem test_beq_target_does_not_wrap : look (.beq 2 1 1073741824#32) (st 8 [(1, 3), (2, 3)]) 1 0 =
    some (8, 3, 0, err .memoryError) := by decide
theorem test_j_absolute : look (.j 1023#32) (st 100) 1 0 = some (4092, 0, 0, ok) := by decide
theorem test_j_target_does_not_wrap : look (.j 1073741824#32) (st 8) 1 0 = some (8, 0, 0, err .memoryError) := by decide
theorem test_jal_links : look (.jal 10#32) (st 8) 31 0 = some (40, 12, 0, ok) := by decide
theorem test_jal_failed_keeps_link : look (.jal 1024#32) (st 8 [(31, 77)]) 31 0 = some (8, 77, 0, err .memoryError) := by
  decide
theorem test_register_check_comes_first : look (.addi 1 32 1#32) (st 8 [(1, 2147483647)]) 1 0 =
    some (8, 2147483647, 0, err .registerError) := by decide
theorem test_advance_is_unchecked : look (.add 1 2 3) (st 4092 [(2, 5), (3, 7)]) 1 0 = some (4096, 12, 0, ok) := by decide

/-! ## Memory and steps -/

theorem test_store_of_zero_removes_entry : ((st 0 [] [(9, 55)]).storeWord 9 0#32).mem = [] := by decide
theorem test_stores_keep_order : (st 0 [] [(9, 1), (4, 2), (7, 3)]).mem = [(4, 2#32), (7, 3#32), (9, 1#32)] := by decide

/-- One step of a state with one call: pc, register 1, the result and the calls left. -/
def lookStep (c : Call) (s : State) : Option (Nat × Int × Option CallResult × List Call) :=
  (nextOf (step { s with calls := [c, .reset] })).map fun t => (t.pc.toNat, (t.register 1).toInt, t.result, t.calls)

theorem test_step_submit : lookStep (.submit (text "addi $1,$0,5")) (st 0) = some (4, 5, ok, [.reset]) := by decide
theorem test_step_submit_error : lookStep (.submit (text "add $1,$40,$3")) (st 8) =
    some (8, 0, some (.decoded (.error .registerError)), [.reset]) := by decide
theorem test_step_decode_only : lookStep (.decode (text "jr $1")) (st 8) =
    some (8, 0, some (.decoded (.ok (.jr 0 1 0))), [.reset]) := by decide
theorem test_step_execute : lookStep (.execute (.add 32 1 2)) (st 8) = some (8, 0, err .registerError, [.reset]) := by
  decide
theorem test_step_reset : lookStep .reset (st 8 [(1, 7)] [(3, 4)]) = some (0, 0, none, [.reset]) := by decide
theorem test_placed_word_runs : (nextOf (step (State.reset.withFetchWord 32 0x20010007))).map (fun t =>
    ((t.register 1).toInt, t.pc.toNat, t.calls)) = some (7, 4, []) := by decide
theorem test_table_words : decodeTableWord 32 0x00000008 = some (.jr 0 0 0) ∧
    decodeTableWord 32 0xAC000000 = some (.sw 0 0 0#32) ∧ decodeTableWord 32 0xFC000000 = none := by decide

/-! ## Witnesses: a state and operands that meet the hypotheses of each statement -/

theorem executes_of {i : Instr} {s t : State} {r : ExecResult} (h : nextOf (exec i s) = some t) (hr : t.Returned r)
    (hc : t.calls = s.calls) : Executes i s t r := by
  refine ⟨?_, hr, hc⟩
  cases he : exec i s with
  | next u => rw [he] at h; cases h; rfl
  | fault f => rw [he] at h; cases h
  | refused f => rw [he] at h; cases h

theorem witness_StepKeepsInvariant : (st 4092 [(1, 3)] [(1023, 5)]).Inv ∧
    ∃ t, step { st 4092 [(1, 3)] [(1023, 5)] with calls := [.submit (text "sw $1,0($0)")] } = .next t :=
  ⟨by decide, _, rfl⟩
theorem witness_OkStepKeepsPcValid : (st 4088).Valid ∧ (st 4092).Valid ∧
    (∃ t, Executes (.add 1 2 3) (st 4088) t (.ok ())) ∧ (∃ t, Executes (.j 1023#32) (st 4092) t (.ok ())) ∧
    (∃ t, Executes (.jal 0#32) (st 4092) t (.ok ())) ∧ (∃ t, Executes (.jr 0 0 0) (st 4092) t (.ok ())) ∧
    ∃ t, Executes (.beq 0 0 0#32) (st 4092) t (.ok ()) :=
  ⟨by decide, by decide, ⟨_, rfl, rfl, rfl⟩, ⟨_, rfl, rfl, rfl⟩, ⟨_, rfl, rfl, rfl⟩, ⟨_, rfl, rfl, rfl⟩, ⟨_, rfl, rfl, rfl⟩⟩
theorem witness_StepRunsTheDecodedInstruction : decodeLine (text "jr $31") = .ok (.jr 0 31 0) ∧
    { st 0 with calls := [.submit (text "jr $31")] }.calls = [.submit (text "jr $31")] ∧
    { st 0 with calls := [.execute (.j 0#32)] }.calls = [.execute (.j 0#32)] ∧ (st 0).calls = [] := by decide
theorem witness_DecodeAloneChangesNothing : decodeLine (text "nop $0") = .error .parameterError ∧
    { st 0 with calls := [.submit (text "nop $0")] }.calls = [.submit (text "nop $0")] ∧
    { st 0 with calls := [.decode (text "j 5")] }.calls = [.decode (text "j 5")] := by decide
theorem witness_ResetCallGivesFreshState :
    { st 8 [(1, 2)] with calls := [.reset, .reset] }.calls = [.reset, .reset] := rfl
theorem witness_PlacedWordRunsNext : decodeTableWord 32 0x03FFF820 = some (.add 31 31 31) := by decide
theorem witness_SubmittedLineNeverFailsRegisterCheck :
    ∃ t, step { st 0 with calls := [.submit (text "add $31,$31,$31")] } = .next t := ⟨_, rfl⟩
theorem witness_EncodedLineDecodesBack : (Instr.add 31 0 31).wellFormed = true ∧
    (Instr.lw 31 0 0x80000000#32).wellFormed = true ∧ (Instr.jr 0 31 0).wellFormed = true ∧
    (Instr.j 4294967295#32).wellFormed = true := by decide
theorem witness_DecodedInstructionIsWellFormed : decodeLine (text "add $31,$0,$31") = .ok (.add 31 0 31) := by decide
theorem witness_UnknownMnemonicIsParameterError : text "addx" ≠ [] ∧ (∀ c ∈ text "addx", ¬ IsSpace c) ∧
    (∀ c ∈ text " \t", IsSpace c) ∧ text " \t" ≠ [] ∧
    text "addx" ∉ [text "add", text "sub", text "and", text "or", text "slt", text "jr", text "addi", text "beq",
      text "lw", text "sw", text "j", text "jal"] := by decide
/-- `jr` alone, `jr` and a tab, and a leading space. -/
theorem witness_FailedSplitIsParameterError : (∀ c ∈ text "jr", ¬ IsSpace c) ∧ (∀ c ∈ text "\t", IsSpace c) ∧
    (∀ c ∈ ([] : Line), IsSpace c) ∧ IsSpace 0x20#8 := by decide
theorem witness_OverlongLineIsParameterError : 100 ≤ (List.replicate 100 0x24#8).length := by decide
theorem regText_one : RegText (text "$1") 1 := .intro [0x31#8] 1 (.plain _ 1 (.digit 1))
theorem regText_thirtyTwo : RegText (text "$32") 32 :=
  .intro [0x33#8, 0x32#8] 32 (.plain _ 32 (.more [0x33#8] 3 2 (.digit 3)))
theorem regText_minusOne : RegText (text "$-1") (-1) := .intro [0x2D#8, 0x31#8] (-1) (.minus [0x31#8] 1 (.digit 1))

/-- A separator, and the boundary indices 32 and -1 in each clause: `add $1,$32,$1`, `jr $-1`, `addi $1,$32,zz`,
`lw $-1,x($1)`, `sw $1,4($32)`. -/
theorem witness_RegisterIndexOutOfRangeIsRegisterError : text " " ≠ [] ∧ (∀ c ∈ text " ", IsSpace c) ∧
    (Op.addi.mnemonic ++ (text " " ++ text "$1,$32,zz")).length ≤ 99 ∧
    (∃ (f0 f1 f2 : Line) (r0 r1 r2 : Int), text "$1,$32,$1" = f0 ++ 0x2C#8 :: (f1 ++ 0x2C#8 :: f2) ∧ RegText f0 r0 ∧
      RegText f1 r1 ∧ RegText f2 r2 ∧ ¬ (ValidReg r0 ∧ ValidReg r1 ∧ ValidReg r2)) ∧
    (∃ r : Int, RegText (text "$-1") r ∧ ¬ ValidReg r) ∧
    (∃ (f0 f1 f2 : Line) (r0 r1 : Int), text "$1,$32,zz" = f0 ++ 0x2C#8 :: (f1 ++ 0x2C#8 :: f2) ∧ RegText f0 r0 ∧
      RegText f1 r1 ∧ 0x2C#8 ∉ f2 ∧ ¬ (ValidReg r0 ∧ ValidReg r1)) ∧
    (∃ (f0 f1 f2 : Line) (r0 r2 : Int), text "$-1,x($1)" = f0 ++ 0x2C#8 :: (f1 ++ 0x28#8 :: (f2 ++ [0x29#8])) ∧
      RegText f0 r0 ∧ 0x28#8 ∉ f1 ∧ RegText f2 r2 ∧ ¬ ValidReg r0) ∧
    (∃ (f0 f1 f2 : Line) (r0 r2 : Int), text "$1,4($32)" = f0 ++ 0x2C#8 :: (f1 ++ 0x28#8 :: (f2 ++ [0x29#8])) ∧
      RegText f0 r0 ∧ 0x28#8 ∉ f1 ∧ RegText f2 r2 ∧ ¬ ValidReg r2 ∧ ∃ imm : Word, IntText f1 imm.toInt) :=
  ⟨by decide, by decide, by decide,
   ⟨text "$1", text "$32", text "$1", 1, 32, 1, by decide, regText_one, regText_thirtyTwo, regText_one, by decide⟩,
   ⟨-1, regText_minusOne, by decide⟩,
   ⟨text "$1", text "$32", text "zz", 1, 32, by decide, regText_one, regText_thirtyTwo, by decide, by decide⟩,
   ⟨text "$-1", text "x", text "$1", -1, 1, by decide, regText_minusOne, by decide, regText_one, by decide⟩,
   ⟨text "$1", text "4", text "$32", 1, 32, by decide, regText_one, by decide, regText_thirtyTwo, by decide, 4#32,
    .plain _ 4 (.digit 4)⟩⟩
/-- One comma, and three. -/
theorem witness_WrongFieldCountIsParameterError : Op.beq ∈ [Op.add, .sub, .and, .or, .slt, .addi, .beq] ∧
    text " " ≠ [] ∧ (∀ c ∈ text " ", IsSpace c) ∧ (text "$1,$2").count 0x2C#8 ≠ 2 ∧
    (text "$1,$2,3,4").count 0x2C#8 ≠ 2 := by decide
theorem witness_MissingDelimiterIsParameterError : Op.lw ∈ [Op.lw, .sw] ∧ text " " ≠ [] ∧
    (∀ c ∈ text " ", IsSpace c) ∧ 0x2C#8 ∉ text "$2 4($0)" ∧ 0x28#8 ∉ text "$2,4$0)" ∧ 0x29#8 ∉ text "$2,4($0" := by
  decide
theorem witness_EncodedWordDecodesBack : (Instr.addi 31 31 (-32768#32)).hasWord = true ∧
    (Instr.lw 31 31 32767#32).hasWord = true ∧ (Instr.jal 67108863#32).hasWord = true := by decide
theorem witness_DecodedWordEncodesBack : decodeWord 0x03FFF820#32 = .ok (.add 31 31 31) := by decide
theorem witness_WordRowsSelectTheOperation : ⟨.jr, 0x00000008#32, 0xFC1FFFFF#32⟩ ∈ wordRows := by decide
theorem witness_AddWritesExactSumOrReportsOverflow :
    ¬ Overflow (((st 0 [(2, 2147483646)]).register 2).toInt + ((st 0 [(3, 1)]).register 3).toInt) ∧
    Overflow (((st 0 [(2, 2147483647)]).register 2).toInt + ((st 0 [(3, 1)]).register 3).toInt) := by decide
theorem witness_SubWritesExactDifferenceOrReportsOverflow :
    ¬ Overflow (((st 0 [(2, -1)]).register 2).toInt - ((st 0 [(3, 2147483647)]).register 3).toInt) ∧
    Overflow (((st 0 [(2, -2)]).register 2).toInt - ((st 0 [(3, 2147483647)]).register 3).toInt) := by decide
theorem witness_AddiWritesExactSumOrReportsOverflow :
    ¬ Overflow (((st 0 [(2, 2147483646)]).register 2).toInt + (1#32).toInt) ∧
    Overflow (((st 0 [(2, 2147483647)]).register 2).toInt + (1#32).toInt) := by decide
theorem witness_OverflowAdvancesPcByFour :
    ∃ t, Executes (.add 0 1 1) (st 0 [(1, 2147483647)]) t (.error .overflowError) := ⟨_, rfl, rfl, rfl⟩
theorem witness_LwLoadsTheWordAtTheIndex :
    ((1023 : MemIndex).val : Int) = ((st 0 [(7, 23)]).register 7).toInt + (1000#32).toInt ∧
    ¬ (0 ≤ ((st 0 [(7, 24)]).register 7).toInt + (1000#32).toInt ∧
      ((st 0 [(7, 24)]).register 7).toInt + (1000#32).toInt ≤ 1023) := by decide
theorem witness_SwStoresTheWordAtTheIndex : (st 0 [(2, 1)] [(0, 5), (1023, 6)]).mem.wf = true ∧
    ((0 : MemIndex).val : Int) = ((st 0 [(2, 1)]).register 2).toInt + (-1#32).toInt ∧
    ¬ (0 ≤ ((st 0).register 2).toInt + (-1#32).toInt ∧ ((st 0).register 2).toInt + (-1#32).toInt ≤ 1023) := by decide
theorem witness_LoadAfterStoreReadsTheStoredWord : ∃ t u, (st 0 [(1, 99), (2, 3)]).mem.wf = true ∧
    Executes (.sw 0 1 4#32) (st 0 [(1, 99), (2, 3)]) t (.ok ()) ∧ Executes (.lw 2 3 1#32) t u (.ok ()) ∧
    ((st 0 [(1, 99), (2, 3)]).register 2).toInt + (1#32).toInt =
      ((st 0 [(1, 99), (2, 3)]).register 0).toInt + (4#32).toInt :=
  ⟨_, _, by decide, ⟨rfl, rfl, rfl⟩, ⟨rfl, rfl, rfl⟩, by decide⟩
theorem witness_JrSetsPcToTheRegister :
    (0 ≤ ((st 0 [(5, 4092)]).register 5).toInt ∧ ((st 0 [(5, 4092)]).register 5).toInt < 4096 ∧
      ((st 0 [(5, 4092)]).register 5).toInt % 4 = 0) ∧
    ¬ (0 ≤ ((st 0 [(5, 6)]).register 5).toInt ∧ ((st 0 [(5, 6)]).register 5).toInt < 4096 ∧
      ((st 0 [(5, 6)]).register 5).toInt % 4 = 0) := by decide
theorem witness_BeqBranchesFromTheCurrentPc : (st 8 [(1, 3)]).register 1 ≠ (st 8 [(1, 3)]).register 2 ∧
    (st 8).register 1 = (st 8).register 2 ∧ ValidTarget (((st 8).pc.toNat : Int) + 4 * (1021#32).toInt) ∧
    ¬ ValidTarget (((st 8).pc.toNat : Int) + 4 * (1022#32).toInt) := by decide
theorem witness_JumpSetsPcToFourTimesAddress : (1023#32).toNat ≤ 1023 ∧ 1023 < (1024#32).toNat := by decide
theorem witness_JumpAndLinkSavesPcPlusFour : (0#32).toNat ≤ 1023 ∧ 1023 < (4294967295#32).toNat := by decide
theorem witness_JrReturnsAfterJal : (st 4088).Valid ∧ (st 4088).pc.toNat ≤ 4088 ∧
    ∃ t, Executes (.jal 1023#32) (st 4088) t (.ok ()) := ⟨by decide, by decide, _, rfl, rfl, rfl⟩
theorem witness_RegisterErrorExactlyForBadFields : (∃ r ∈ (Instr.lw 32 1 0#32).meaningfulRegs, ¬ ValidReg r) ∧
    ∀ r ∈ (Instr.lw 31 0 0#32).meaningfulRegs, ValidReg r := by decide
theorem witness_FailedStepChangesNothing : (∃ t, Executes (.j 1024#32) (st 8) t (.error .memoryError)) ∧
    (∃ t, Executes (.add 32 1 2) (st 8) t (.error .registerError)) ∧
    ∃ t, Executes (.sub 1 2 3) (st 8 [(3, -2147483648)]) t (.error .overflowError) :=
  ⟨⟨_, rfl, rfl, rfl⟩, ⟨_, rfl, rfl, rfl⟩, ⟨_, rfl, rfl, rfl⟩⟩
theorem witness_ErrorsFollowTheMatrix : ∃ t, Executes (.beq 0 0 (-1#32)) (st 0) t (.error .memoryError) :=
  ⟨_, rfl, rfl, rfl⟩
/-- Register 1 differs, and ADD of registers 2 and 3 does not read it. -/
theorem witness_RegisterReadsAndWritesFollowTheTable : ∃ t t', (st 0 [(1, 9)]).pc = (st 0).pc ∧
    (st 0 [(1, 9)]).mem = (st 0).mem ∧
    (∀ k : Reg, k.num ∈ (Instr.add 4 2 3).sources → (st 0 [(1, 9)]).register k = (st 0).register k) ∧
    Executes (.add 4 2 3) (st 0) t (.ok ()) ∧ Executes (.add 4 2 3) (st 0 [(1, 9)]) t' (.ok ()) :=
  ⟨_, _, by decide, by decide, by decide, ⟨rfl, rfl, rfl⟩, ⟨rfl, rfl, rfl⟩⟩
theorem witness_OnlySwWritesAndOnlyLwReadsMemory : (Instr.lw 0 1 0#32).op ≠ .sw ∧ (Instr.sw 0 1 0#32).op ≠ .lw ∧
    (∃ t, exec (.lw 0 1 0#32) (st 0) = .next t) ∧ (∃ t, exec (.sw 0 1 0#32) (st 0) = .next t) ∧
    ∃ t, exec (.sw 0 1 0#32) { st 0 with mem := [(5, 1#32)] } = .next t :=
  ⟨by decide, by decide, ⟨_, rfl⟩, ⟨_, rfl⟩, ⟨_, rfl⟩⟩
/-- A transfer, which is Ok, and a step that advances. -/
theorem witness_OnlyBeqAndJalUsePc : (Instr.j 3#32).op ≠ .beq ∧ (Instr.j 3#32).op ≠ .jal ∧
    (∃ t, exec (.j 3#32) (st 0) = .next t ∧ t.Returned (.ok ())) ∧
    (∃ t, exec (.j 3#32) { st 0 with pc := 4096#32 } = .next t) ∧ (Instr.add 1 2 3).op ≠ .beq ∧
    (Instr.add 1 2 3).op ≠ .jal ∧ (∃ t, exec (.add 1 2 3) (st 0) = .next t) ∧
    (∃ t, exec (.add 1 2 3) { st 0 with pc := 4294967292#32 } = .next t) ∧
    ¬ ((Instr.add 1 2 3).op = .jr ∨ (Instr.add 1 2 3).op = .j) :=
  ⟨by decide, by decide, ⟨_, rfl, rfl⟩, ⟨_, rfl⟩, by decide, by decide, ⟨_, rfl⟩, ⟨_, rfl⟩, by decide⟩
theorem witness_EarlierErrorLeavesNoTrace : (∃ t, Executes (.j 1024#32) (st 8) t (.error .memoryError)) ∧
    ∃ t, Executes (.addi 1 2 1#32) (st 0 [(1, 2147483647)]) t (.error .overflowError) :=
  ⟨⟨_, rfl, rfl, rfl⟩, ⟨_, rfl, rfl, rfl⟩⟩

end Sys2Proof.Tests
end

section
/-! The statements about the Machine State (spec/10_state.md): what reset holds (R33), and which instructions write and
read the data memory (R28). -/

namespace Sys2Proof.Machine

/-! ## Reset -/

namespace State

@[simp] theorem register_reset (r : Reg) : State.reset.register r = 0#32 := by
  by_cases h : r.val = 0
  · simp [register, h]
  · simp [register, h, State.reset]

@[simp] theorem memory_reset (a : MemIndex) : State.reset.memory a = 0#32 := rfl

theorem valid_reset : State.reset.Valid := by decide

end State

/-- Settles O1: the accessors read 0 after reset, for every register and every word. -/
theorem resetIsAllZeroAndValid : Obligations.ResetIsAllZeroAndValid :=
  ⟨State.register_reset, State.memory_reset, rfl, State.valid_reset⟩

/-! ## Memory is written only by SW -/

/-- Of the shapes of a next state only SW's `stored` changes memory. -/
theorem Shape.mem_eq {i : Instr} {s t : State} (h : Shape i s t) (hi : i.op ≠ .sw) : t.mem = s.mem := by
  cases h with
  | stored _ _ _ hsw => exact absurd hsw hi
  | badRegister | badAddress | overflow | wrote | untaken | transferred | linked => simp

theorem exec_mem_eq {i : Instr} {s t : State} (hi : i.op ≠ .sw) (h : exec i s = .next t) : t.mem = s.mem :=
  (shape_of_exec h).mem_eq hi

/-! ## Memory is read only by LW

`AgreeOffMemory` is the relation of two runs that started with different memories. Every shared operation keeps it,
since none but `State.memory` looks at `mem`. -/

/-- The two states hold the same registers, pc and result; their memories may differ. -/
structure State.AgreeOffMemory (s t : State) : Prop where
  regs : t.regs = s.regs
  pc : t.pc = s.pc
  result : t.result = s.result

namespace State.AgreeOffMemory

variable {s t : State}

theorem withMemory (s : State) (m : Memory) : s.AgreeOffMemory { s with mem := m } := ⟨rfl, rfl, rfl⟩

theorem sameRegisters (h : s.AgreeOffMemory t) : SameRegisters s t := register_congr h.regs

theorem setPc (h : s.AgreeOffMemory t) (v : Word) : (s.setPc v).AgreeOffMemory (t.setPc v) :=
  ⟨h.regs, rfl, h.result⟩

theorem advanceBy (h : s.AgreeOffMemory t) (k : Nat) : (s.advanceBy k).AgreeOffMemory (t.advanceBy k) :=
  ⟨h.regs, by simp [h.pc], h.result⟩

theorem setRegister (h : s.AgreeOffMemory t) (d : Reg) (v : Word) :
    (s.setRegister d v).AgreeOffMemory (t.setRegister d v) := by
  refine ⟨?_, by simp [h.pc], by simp [h.result]⟩
  unfold State.setRegister
  split
  · exact h.regs
  · simp only [h.regs]

theorem storeWord (h : s.AgreeOffMemory t) (a : MemIndex) (v : Word) :
    (s.storeWord a v).AgreeOffMemory (t.storeWord a v) :=
  ⟨h.regs, h.pc, h.result⟩

theorem returnOk (h : s.AgreeOffMemory t) : s.returnOk.AgreeOffMemory t.returnOk :=
  ⟨h.regs, h.pc, rfl⟩

theorem returnErr (h : s.AgreeOffMemory t) (e : ExecError) : (s.returnErr e).AgreeOffMemory (t.returnErr e) :=
  ⟨h.regs, h.pc, rfl⟩

theorem writeBack (h : s.AgreeOffMemory t) (d : Reg) (v : Word) :
    (s.writeBack d v).AgreeOffMemory (t.writeBack d v) :=
  ((h.setRegister d v).advanceBy _).returnOk

theorem checkedWriteBack (h : s.AgreeOffMemory t) (d : Reg) (m : Int) :
    (s.checkedWriteBack d m).AgreeOffMemory (t.checkedWriteBack d m) :=
  checkedWriteBack_rel (h.writeBack d _) ((h.advanceBy _).returnErr _)

/-- A transfer without a link (JR, BEQ, J). -/
theorem transfer (h : s.AgreeOffMemory t) (z : Int) : (s.transfer z id).AgreeOffMemory (t.transfer z id) :=
  transfer_rel (h.setPc _).returnOk (h.returnErr _)

/-- The end of BEQ, where the two states decide the branch alike. -/
theorem branch (h : s.AgreeOffMemory t) (c : Prop) [Decidable c] (z : Int) (k : Nat) :
    (if c then s.transfer z id else (s.advanceBy k).returnOk).AgreeOffMemory
      (if c then t.transfer z id else (t.advanceBy k).returnOk) := by
  split
  · exact h.transfer z
  · exact (h.advanceBy k).returnOk

/-- The end of JAL, which writes the link `v` first. -/
theorem transfer_link (h : s.AgreeOffMemory t) (z : Int) (d : Reg) (v : Word) :
    (s.transfer z (·.setRegister d v)).AgreeOffMemory (t.transfer z (·.setRegister d v)) :=
  transfer_rel ((h.setRegister d v).setPc _).returnOk (h.returnErr _)

end State.AgreeOffMemory

/-- Two runs of one instruction other than LW that differ at most in memory end in states that do so too. -/
theorem exec_agreeOffMemory {i : Instr} {s t t' : State} {m : Memory} (hi : i.op ≠ .lw) (h : exec i s = .next t)
    (h' : exec i { s with mem := m } = .next t') : t.AgreeOffMemory t' := by
  have hs := State.AgreeOffMemory.withMemory s m
  have he := hs.returnErr .registerError
  cases i with
  | lw => exact absurd rfl hi
  | add | sub => exact withRegs3_rel (fun d _ _ _ _ _ => hs.checkedWriteBack d _) he h h'
  | and | or | slt => exact withRegs3_rel (fun d _ _ _ _ _ => hs.writeBack d _) he h h'
  | addi => exact withRegs2_rel (fun _ d _ _ => hs.checkedWriteBack d _) he h h'
  | jr => exact withReg_rel (fun _ _ => hs.transfer _) he h h'
  | beq => exact withRegs2_rel (fun _ _ _ _ => hs.branch _ _ _) he h h'
  | sw =>
    exact withRegs2_rel (fun _ _ _ _ => withMemIndex_rel
      (fun a => ((hs.storeWord a _).advanceBy _).returnOk) (hs.returnErr _)) he h h'
  | j =>
    rw [exec, execJ, Host.Outcome.next.injEq] at h h'
    exact h ▸ h' ▸ hs.transfer _
  | jal =>
    rw [exec, execJal, Host.Outcome.next.injEq] at h h'
    exact h ▸ h' ▸ hs.transfer_link _ _ _

/-- Settles O47: the shapes of a next state for the writes, two runs side by side for the reads. -/
theorem onlySwWritesAndOnlyLwReadsMemory : Obligations.OnlySwWritesAndOnlyLwReadsMemory := by
  refine ⟨fun i s t hi h => State.memory_congr (exec_mem_eq hi h), fun i s t t' m hi h h' => ?_⟩
  have ha := exec_agreeOffMemory hi h h'
  exact ⟨ha.sameRegisters, ha.pc, ha.result⟩

end Sys2Proof.Machine
end

section
/-! The statement about the numeric codes (spec/30_encoding.md R68). -/

namespace Sys2Proof

/-- The format decides the opcode of an R-format operation: one case per operation, and the other formats are excluded. -/
theorem Op.opcode_of_registerOp {o : Op} (h : o.format = .registerOp) : o.opcode = 0x00#6 := by
  cases o with
  | add | sub | and | or | slt | jr => rfl
  | addi | beq | lw | sw | j | jal => nomatch h

/-- Settles O22: each listed code is a row of the model's table, and the shared opcode is `Op.opcode_of_registerOp`. -/
theorem numericCodes : Obligations.NumericCodes :=
  ⟨rfl, rfl, rfl, rfl, rfl, rfl, fun _ => Op.opcode_of_registerOp, rfl, rfl, rfl, rfl, rfl, rfl⟩

end Sys2Proof
end

section
/-! The statements about `execute` as a whole (spec/41_executor_common.md): it is total (R120), and a failed step changes
nothing, but pc on overflow (R129). -/

namespace Sys2Proof.Machine

/-! ## Every step returns exactly one result -/

/-- Whatever a step does, it returns a value to its caller (R121). -/
theorem Shape.exists_returned {i : Instr} {s t : State} (h : Shape i s t) : ∃ r, t.Returned r := by
  cases h with
  | badRegister | badAddress | overflow => exact ⟨.error _, rfl⟩
  | wrote | stored | untaken | transferred | linked => exact ⟨.ok (), rfl⟩

/-- Whatever a step does, it takes and adds no call: the queue is not `execute`'s (log 2). -/
theorem Shape.calls_eq {i : Instr} {s t : State} (h : Shape i s t) : t.calls = s.calls := by
  cases h with
  | badRegister | badAddress | overflow | wrote | stored | untaken | transferred | linked => simp

/-- `exec` is a function and a state holds one result, so the outcome of an Instruction on a state is determined. -/
theorem Executes.unique {i : Instr} {s t t' : State} {r r' : ExecResult} (h : Executes i s t r)
    (h' : Executes i s t' r') : t' = t ∧ r' = r := by
  obtain ⟨hn, hr, -⟩ := h
  obtain ⟨hn', hr', -⟩ := h'
  cases hn.symm.trans hn'
  cases hr.symm.trans hr'
  exact ⟨rfl, rfl⟩

/-- Settles O4: existence from the shapes of a next state, uniqueness from `exec` being a function. -/
theorem executeIsTotal : Obligations.ExecuteIsTotal := by
  intro i s
  obtain ⟨t, hn, hs⟩ := exec_shape i s
  obtain ⟨r, hr⟩ := hs.exists_returned
  have he : Executes i s t r := ⟨hn, hr, hs.calls_eq⟩
  exact ⟨t, r, he, fun _ _ => he.unique⟩

/-! ## A failed step -/

/-- The inversion lemma of a failed step: nothing but the returned error differs from the state before, unless the step
overflowed, when pc has moved too (R128, R129). -/
theorem Shape.of_returned_error {i : Instr} {s t : State} {e : ExecError} (h : Shape i s t)
    (hr : t.Returned (.error e)) :
    t = s.returnErr e ∨ e = .overflowError ∧ t = (s.advanceBy overflowPcStep).returnErr e := by
  cases h with
  | badRegister | badAddress => cases hr; exact .inl rfl
  | overflow => cases hr; exact .inr ⟨rfl, rfl⟩
  | wrote | stored | untaken | transferred | linked => nomatch hr

/-- Settles O44: the two states a failed step can end in keep the registers and memory, and only overflow's moves pc. -/
theorem failedStepChangesNothing : Obligations.FailedStepChangesNothing := by
  rintro i s t e ⟨hn, hr, -⟩
  obtain rfl | ⟨rfl, rfl⟩ := (shape_of_exec hn).of_returned_error hr
  · exact ⟨fun _ => rfl, rfl, fun _ => rfl⟩
  · exact ⟨fun _ => rfl, rfl, fun hne => absurd rfl hne⟩

end Sys2Proof.Machine
end

section
/-! The statements about AND, OR and SLT (spec/42_alu.md R139 to R141). Their lines have one form and their steps one
end, so each of the two is a lemma, and a statement adds what its own operation writes. -/

namespace Sys2Proof

/-! ## The line of a three-register operation -/

/-- The register text the encoder writes for a register that exists has no sign (R73, R74). -/
theorem regText_num (r : Reg) : regText r.num = 0x24#8 :: natText r.val := by
  have hr : ¬ r.num < 0 := Int.not_lt.2 (Int.natCast_nonneg r.val)
  rw [regText, intText, if_neg hr, Int.natAbs_natCast]

/-- The line of an operation whose operands the three-register parser reads, `l` being its mnemonic, one space and the
first `$`, decodes to that operation on those registers (R97). -/
theorem decodeLine_threeRegs {o : Op} {mk : Int → Int → Int → Instr} {l : Line} (ho : parseOperands o = threeRegs mk)
    (hl : l = o.mnemonic ++ [0x20#8, 0x24#8]) (d a b : Reg) :
    decodeLine (l ++ natText d.val ++ text ",$" ++ natText a.val ++ text ",$" ++ natText b.val) =
      .ok (mk d.num a.num b.num) := by
  have hlen : (o.mnemonic ++ ([0x20#8] ++ (regText d.num ++ 0x2C#8 ::
      (regText a.num ++ 0x2C#8 :: regText b.num)))).length ≤ 99 := by
    have hm := Laws.LineLength.mnemonic_length o
    have hops := Laws.LineLength.threeRegs_le d.num a.num b.num
    rw [List.length_append, List.length_append, List.length_singleton]
    omega
  calc decodeLine (l ++ natText d.val ++ text ",$" ++ natText a.val ++ text ",$" ++ natText b.val)
    _ = decodeLine (o.mnemonic ++ ([0x20#8] ++ (regText d.num ++ 0x2C#8 ::
          (regText a.num ++ 0x2C#8 :: regText b.num)))) := by
      have hsep : text ",$" = [0x2C#8, 0x24#8] := rfl
      simp [hl, hsep, regText_num]
    _ = parseOperands o (regText d.num ++ 0x2C#8 :: (regText a.num ++ 0x2C#8 :: regText b.num)) :=
      decodeLine_of_mnemonic rfl (by decide) (by decide) (by simp [IsSpace]) hlen
    _ = .ok (mk d.num a.num b.num) := by
      have hd := Machine.validReg_num d
      have ha := Machine.validReg_num a
      have hb := Machine.validReg_num b
      rw [ho, threeRegs_text (regText_regText hd) (regText_regText ha) (regText_regText hb) ⟨hd, ha, hb⟩]

end Sys2Proof

namespace Sys2Proof.Machine

/-! ## The step -/

/-- A step that ends in `writeBack` returns Ok, writes its destination register alone and advances pc (R126, R130). -/
theorem executes_of_writeBack {i : Instr} {s : State} {d : Reg} {v : Word} (h : exec i s = .next (s.writeBack d v)) :
    Executes i s (s.writeBack d v) (.ok ()) ∧ WritesRegister s (s.writeBack d v) d v ∧
      SameMemory s (s.writeBack d v) ∧ (s.writeBack d v).pc = s.pc + 4#32 :=
  ⟨⟨h, s.writeBack_result d v, s.writeBack_calls d v⟩, s.writeBack_writes d v,
    State.memory_congr (s.writeBack_mem d v), s.writeBack_pc d v⟩

theorem exec_and_num (d a b : Reg) (s : State) : exec (.and d.num a.num b.num) s =
    .next (s.writeBack d (s.register a &&& s.register b)) := withRegs3_num d a b s _

theorem exec_or_num (d a b : Reg) (s : State) : exec (.or d.num a.num b.num) s =
    .next (s.writeBack d (s.register a ||| s.register b)) := withRegs3_num d a b s _

theorem exec_slt_num (d a b : Reg) (s : State) : exec (.slt d.num a.num b.num) s =
    .next (s.writeBack d (if (s.register a).toInt < (s.register b).toInt then 1#32 else 0#32)) :=
  withRegs3_num d a b s _

/-- Settles O29: the value written is the word `&&&`, whose bits are the library's `BitVec.getLsbD_and`. -/
theorem andWritesBitwiseAnd : Obligations.AndWritesBitwiseAnd := by
  refine ⟨decodeLine_threeRegs (o := .and) rfl rfl, rfl, rfl, fun d a b s => ?_⟩
  obtain ⟨hex, hframe⟩ := executes_of_writeBack (exec_and_num d a b s)
  exact ⟨_, _, hex, fun k => BitVec.getLsbD_and, hframe⟩

/-- Settles O30: the value written is the word `|||`, whose bits are the library's `BitVec.getLsbD_or`. -/
theorem orWritesBitwiseOr : Obligations.OrWritesBitwiseOr := by
  refine ⟨decodeLine_threeRegs (o := .or) rfl rfl, rfl, rfl, fun d a b s => ?_⟩
  obtain ⟨hex, hframe⟩ := executes_of_writeBack (exec_or_num d a b s)
  exact ⟨_, _, hex, fun k => BitVec.getLsbD_or, hframe⟩

/-- Settles O31: the value written is the comparison of the signed values itself. -/
theorem sltWritesSignedComparison : Obligations.SltWritesSignedComparison :=
  ⟨decodeLine_threeRegs (o := .slt) rfl rfl, rfl, rfl, fun d a b s => ⟨_, executes_of_writeBack (exec_slt_num d a b s)⟩⟩

end Sys2Proof.Machine
end

section
/-! The statements about the Decoder (spec/40_decoder.md): it accepts exactly the grammar of R72 to R77, reads back the
lines the encoder writes, and answers the errors of R92 to R103. -/

namespace Sys2Proof

/-! ## The Decoder is the grammar -/

/-- The inversion lemma of the Decoder: it succeeds only if each of its four checks does (R103, R105). -/
theorem decodeLine_ok {l : Line} {i : Instr} (h : decodeLine l = .ok i) : ∃ (m ops : Line) (o : Op),
    l.length ≤ Config.maxLine ∧ splitWs l = .ok (m, ops) ∧ opOfMnemonic m = some o ∧ parseOperands o ops = .ok i := by
  unfold decodeLine at h
  split at h
  · cases h
  · next hlen =>
    split at h
    · cases h
    · next m ops hs =>
      split at h
      · cases h
      · next o ho => exact ⟨m, ops, o, Nat.le_of_not_lt hlen, hs, ho, h⟩

theorem wellFormedLine_of_decodeLine {l : Line} {i : Instr} (h : decodeLine l = .ok i) : WellFormedLine l i := by
  obtain ⟨m, ops, o, hlen, hs, ho, hp⟩ := decodeLine_ok h
  obtain ⟨ht, hwf, rfl⟩ := parseOperands_ok hp
  obtain ⟨ws, hws, hsp, hl⟩ := splitWs_ok hs
  exact ⟨hlen, hwf, ws, ops, hws, hsp, ht, opOfMnemonic_some ho ▸ hl⟩

theorem decodeLine_of_wellFormedLine {l : Line} {i : Instr} (h : WellFormedLine l i) : decodeLine l = .ok i := by
  obtain ⟨hlen, hwf, ws, ops, hws, hsp, ht, rfl⟩ := h
  obtain ⟨c, t, hops, hc⟩ := head_of_operandText ht
  rw [decodeLine_of_mnemonic hops hc hws hsp hlen, parseOperands_text ht hwf]

/-- Settles O14: the checks that succeeded give the parts of a well-formed line, and those parts pass each check. -/
theorem decoderAcceptsExactlyTheGrammar : Obligations.DecoderAcceptsExactlyTheGrammar :=
  fun _ _ => ⟨wellFormedLine_of_decodeLine, decodeLine_of_wellFormedLine⟩

/-- Settles O15: a well-formed Instruction is part of what the grammar asks of a line. -/
theorem decodedInstructionIsWellFormed : Obligations.DecodedInstructionIsWellFormed := by
  intro l i h
  obtain ⟨-, hwf, -⟩ := wellFormedLine_of_decodeLine h
  exact hwf

/-! ## The encoder's line -/

theorem encodeLine_length (i : Instr) : (encodeLine i).length ≤ Config.maxLine := by
  cases i with
  | add => exact Laws.LineLength.add ..
  | sub => exact Laws.LineLength.sub ..
  | and => exact Laws.LineLength.and ..
  | or => exact Laws.LineLength.or ..
  | slt => exact Laws.LineLength.slt ..
  | jr => exact Laws.LineLength.jr ..
  | addi => exact Laws.LineLength.addi ..
  | beq => exact Laws.LineLength.beq ..
  | lw => exact Laws.LineLength.lw ..
  | sw => exact Laws.LineLength.sw ..
  | j => exact Laws.LineLength.j ..
  | jal => exact Laws.LineLength.jal ..

/-- The operands the encoder writes for a well-formed Instruction are operand text of it (R75). -/
theorem operandText_text {i : Instr} (h : i.wellFormed = true) : OperandText (operandText i) i := by
  cases i with
  | add | sub | and | or | slt =>
    obtain ⟨hd, hs, ht⟩ := of_decide_eq_true h
    constructor <;> exact regText_regText (by assumption)
  | jr rd rs rt =>
    obtain ⟨rfl, hs, rfl⟩ := of_decide_eq_true h
    exact .jr _ _ (regText_regText hs)
  | addi rs rt imm | beq rs rt imm =>
    obtain ⟨hs, ht⟩ := of_decide_eq_true h
    constructor
    · exact regText_regText ht
    · exact regText_regText hs
    · exact intText_toInt imm
  | lw rs rt imm | sw rs rt imm =>
    obtain ⟨hs, ht⟩ := of_decide_eq_true h
    constructor
    · exact regText_regText ht
    · exact intText_toInt imm
    · exact regText_regText hs
  | j address => exact .j _ _ (uintText_toNat address)
  | jal address => exact .jal _ _ (uintText_toNat address)

theorem decodeLine_encodeLine {i : Instr} (h : i.wellFormed = true) : decodeLine (encodeLine i) = .ok i :=
  decodeLine_of_wellFormedLine ⟨encodeLine_length i, h, [0x20#8], operandText i, by decide, by simp [IsSpace],
    operandText_text h, rfl⟩

/-- Settles O13: the encoder's line is a well-formed line of the grammar, with one space as its separator. -/
theorem encodedLineDecodesBack : Obligations.EncodedLineDecodesBack := fun _ => decodeLine_encodeLine

/-! ## Lines that fail before their fields are read -/

/-- Settles O17: the length guard is the first check (R92). -/
theorem overlongLineIsParameterError : Obligations.OverlongLineIsParameterError := fun _ h => if_pos h

/-- With nothing but whitespace after the part without whitespace, the split fails (R93). -/
theorem splitWs_of_spaces {m ws : Line} (hm : ∀ c ∈ m, isSpace c = false) (hws : ∀ c ∈ ws, isSpace c = true) :
    splitWs (m ++ ws) = .error .parameterError := by
  have hrest : (m ++ ws).dropWhile (fun c => !isSpace c) = ws.dropWhile (fun c => !isSpace c) :=
    List.dropWhile_append_of_pos (by simpa using hm)
  have hops : (ws.dropWhile (fun c => !isSpace c)).dropWhile isSpace = [] :=
    List.dropWhile_eq_nil_iff.2 fun c hc => hws c ((List.dropWhile_sublist _).subset hc)
  simp [splitWs, hrest, hops]

/-- A line that starts with whitespace has an empty mnemonic part: nothing is trimmed (D9). -/
theorem splitWs_of_leading_space {c : Chr} (l : Line) (hc : isSpace c = true) :
    splitWs (c :: l) = .error .parameterError := by
  simp [splitWs, hc]

theorem isSpace_eq_false {c : Chr} : isSpace c = false ↔ ¬ IsSpace c := by
  rw [← isSpace_iff, Bool.not_eq_true]

/-- Settles O50: one of the two parts of the split is empty, on the right or on the left. -/
theorem failedSplitIsParameterError : Obligations.FailedSplitIsParameterError :=
  ⟨fun _ _ hm hws => decodeLine_of_split_error
      (splitWs_of_spaces (fun c hc => isSpace_eq_false.2 (hm c hc)) fun c hc => isSpace_iff.2 (hws c hc)),
    fun _ l hc => decodeLine_of_split_error (splitWs_of_leading_space l (isSpace_iff.2 hc))⟩

/-- A line whose operands every operation of its mnemonic rejects as malformed is rejected so, whatever its length and
whatever the split leaves of the operands. -/
theorem decodeLine_parameterError {m ws ops : Line} (hm0 : m ≠ []) (hm : ∀ c ∈ m, isSpace c = false) (hw0 : ws ≠ [])
    (hw : ∀ c ∈ ws, IsSpace c)
    (h : ∀ o, opOfMnemonic m = some o → parseOperands o (ops.dropWhile isSpace) = .error .parameterError) :
    decodeLine (m ++ (ws ++ ops)) = .error .parameterError := by
  unfold decodeLine
  split
  · rfl
  · rw [splitWs_text ops hm0 hm hw0 hw]
    by_cases hops : ops.dropWhile isSpace = []
    · rw [if_pos hops]
    · cases ho : opOfMnemonic m with
      | none => simp only [if_neg hops, ho]
      | some o => simpa only [if_neg hops, ho] using h o ho

/-- `Op.all` lists every operation, so a text that is none of their mnemonics selects none (R94). -/
theorem opOfMnemonic_eq_none {m : Line} (h : m ∉ Op.all.map Op.mnemonic) : opOfMnemonic m = none := by
  refine List.find?_eq_none.2 fun o ho hm => h ?_
  exact beq_iff_eq.1 hm ▸ List.mem_map_of_mem ho

/-- Settles O16: an unknown mnemonic selects no operation, and alone on its line it does not even split. -/
theorem unknownMnemonicIsParameterError : Obligations.UnknownMnemonicIsParameterError := by
  intro m hm0 hm hunknown
  have hnone : opOfMnemonic m = none := opOfMnemonic_eq_none hunknown
  obtain ⟨hsplit, -⟩ := failedSplitIsParameterError
  refine ⟨by simpa using hsplit m [] hm (by simp), fun ws ops hw0 hw => ?_⟩
  exact decodeLine_parameterError hm0 (fun c hc => isSpace_eq_false.2 (hm c hc)) hw0 hw (by simp [hnone])

/-- The form of `decodeLine_parameterError` for a known mnemonic. -/
theorem decodeLine_mnemonic_parameterError {o : Op} {ws ops : Line} (hw0 : ws ≠ []) (hw : ∀ c ∈ ws, IsSpace c)
    (h : parseOperands o (ops.dropWhile isSpace) = .error .parameterError) :
    decodeLine (o.mnemonic ++ (ws ++ ops)) = .error .parameterError := by
  obtain ⟨hm0, hm⟩ := mnemonic_no_space o
  refine decodeLine_parameterError hm0 hm hw0 hw fun o' ho' => ?_
  cases (opOfMnemonic_mnemonic o).symm.trans ho'
  exact h

/-! ## Delimiters -/

/-- The end of the separator run holds no comma. -/
theorem count_comma_dropWhile_isSpace (ops : Line) : (ops.dropWhile isSpace).count 0x2C#8 = ops.count 0x2C#8 := by
  have hspaces : (ops.takeWhile isSpace).count 0x2C#8 = 0 := List.count_eq_zero.2 fun hmem => by
    have := List.mem_takeWhile_imp hmem
    revert this; decide
  rw [← Nat.zero_add ((ops.dropWhile isSpace).count _), ← hspaces, ← List.count_append,
    List.takeWhile_append_dropWhile]

/-- The operations of three fields look at the number of fields first (R95). -/
theorem parseOperands_of_count {o : Op} {ops : Line} (ho : o ∈ [Op.add, .sub, .and, .or, .slt, .addi, .beq])
    (hc : ops.count 0x2C#8 ≠ 2) : parseOperands o ops = .error .parameterError := by
  have hthree : ∀ f0 f1 f2, splitCommas ops ≠ [f0, f1, f2] := fun f0 f1 f2 hs => by
    have hlen := splitCommas_length ops
    rw [hs, List.length_cons, List.length_cons, List.length_singleton] at hlen
    omega
  have hregs : ∀ mk, threeRegs mk ops = .error .parameterError := fun mk => by
    unfold threeRegs
    split
    · next hs => exact absurd hs (hthree _ _ _)
    · rfl
  have himm : ∀ mk, twoRegsImm mk ops = .error .parameterError := fun mk => by
    unfold twoRegsImm
    split
    · next hs => exact absurd hs (hthree _ _ _)
    · rfl
  cases o with
  | add | sub | and | or | slt => exact hregs _
  | addi | beq => exact himm _
  | jr | lw | sw | j | jal => exact absurd ho (by decide)

/-- Settles O19: the separator run takes no comma away, and the number of commas decides before any field is read. -/
theorem wrongFieldCountIsParameterError : Obligations.WrongFieldCountIsParameterError := by
  intro o ws ops ho hw0 hw hc
  rw [← count_comma_dropWhile_isSpace] at hc
  exact decodeLine_mnemonic_parameterError hw0 hw (parseOperands_of_count ho hc)

/-- The load/store forms look for the three delimiters first: with one missing they fail (R100). -/
theorem memForm_of_missing {mk} {ops : Line} (h : 0x2C#8 ∉ ops ∨ 0x28#8 ∉ ops ∨ 0x29#8 ∉ ops) :
    memForm mk ops = .error .parameterError := by
  have hnone : memFields ops = none := by
    cases hf : memFields ops with
    | none => rfl
    | some p =>
      have hops := memFields_some hf
      rw [hops] at h
      simp at h
  rw [memForm, hnone]

/-- Settles O20: what the separator run leaves of the operands lacks the delimiter too. -/
theorem missingDelimiterIsParameterError : Obligations.MissingDelimiterIsParameterError := by
  intro o ws ops ho hw0 hw hmiss
  have hsub : ∀ {d : Chr}, d ∉ ops → d ∉ ops.dropWhile isSpace := fun hd hmem =>
    hd ((List.dropWhile_sublist _).subset hmem)
  have herr : ∀ mk, memForm mk (ops.dropWhile isSpace) = .error .parameterError := fun _ =>
    memForm_of_missing (hmiss.imp hsub (Or.imp hsub hsub))
  refine decodeLine_mnemonic_parameterError hw0 hw ?_
  cases o with
  | lw | sw => exact herr _
  | add | sub | and | or | slt | jr | addi | beq | j | jal => exact absurd ho (by decide)

/-! ## Register indices out of range -/

/-- A field of the right shape and out of range ends the parse with RegisterError (R96). -/
theorem RegText.parse_invalid {f : Line} {r : Int} (h : RegText f r) (hv : ¬ ValidReg r) :
    parseReg f = .error .registerError := by
  rw [h.parse, if_neg hv]

theorem RegText.parse_valid {f : Line} {r : Int} (h : RegText f r) (hv : ValidReg r) : parseReg f = .ok r := by
  rw [h.parse, if_pos hv]

/-- Two register fields read one after the other, not both in range, whatever is read after them. -/
theorem parseReg_bind_invalid {α} {f0 f1 : Line} {r0 r1 : Int} (h0 : RegText f0 r0) (h1 : RegText f1 r1)
    (hv : ¬ (ValidReg r0 ∧ ValidReg r1)) (k : Int → Int → Except DecodeError α) :
    (do let a ← parseReg f0; let b ← parseReg f1; k a b) = .error .registerError := by
  by_cases hv0 : ValidReg r0
  · rw [h0.parse_valid hv0, h1.parse_invalid fun hv1 => hv ⟨hv0, hv1⟩]; rfl
  · rw [h0.parse_invalid hv0]; rfl

theorem threeRegs_registerError {mk} {f0 f1 f2 : Line} {r0 r1 r2 : Int} (h0 : RegText f0 r0) (h1 : RegText f1 r1)
    (h2 : RegText f2 r2) (hv : ¬ (ValidReg r0 ∧ ValidReg r1 ∧ ValidReg r2)) :
    threeRegs mk (f0 ++ 0x2C#8 :: (f1 ++ 0x2C#8 :: f2)) = .error .registerError := by
  unfold threeRegs
  rw [splitCommas_fields (comma_not_mem_reg h0) (comma_not_mem_reg h1) (comma_not_mem_reg h2)]
  by_cases hv01 : ValidReg r0 ∧ ValidReg r1
  · simp only [h0.parse_valid hv01.1, h1.parse_valid hv01.2,
      h2.parse_invalid fun hv2 => hv ⟨hv01.1, hv01.2, hv2⟩]; rfl
  · exact parseReg_bind_invalid h0 h1 hv01 _

theorem twoRegsImm_registerError {mk} {f0 f1 f2 : Line} {r0 r1 : Int} (h0 : RegText f0 r0) (h1 : RegText f1 r1)
    (h2 : 0x2C#8 ∉ f2) (hv : ¬ (ValidReg r0 ∧ ValidReg r1)) :
    twoRegsImm mk (f0 ++ 0x2C#8 :: (f1 ++ 0x2C#8 :: f2)) = .error .registerError := by
  unfold twoRegsImm
  rw [splitCommas_fields (comma_not_mem_reg h0) (comma_not_mem_reg h1) h2]
  exact parseReg_bind_invalid h0 h1 hv _

/-- The three delimiters where R100 expects them give the three fields. -/
theorem memFields_text {f0 f1 f2 : Line} (h0 : 0x2C#8 ∉ f0) (h1 : 0x28#8 ∉ f1) (h2 : 0x29#8 ∉ f2) :
    memFields (f0 ++ 0x2C#8 :: (f1 ++ 0x28#8 :: (f2 ++ [0x29#8]))) = some (f0, f1, f2) := by
  simp only [memFields, cutAt_append _ h0, cutAt_append _ h1, cutAt_append _ h2, if_true]

theorem memForm_registerError {mk} {f0 f1 f2 : Line} {r0 r2 : Int} (h0 : RegText f0 r0) (h1 : 0x28#8 ∉ f1)
    (h2 : RegText f2 r2) (hv : ¬ ValidReg r0 ∨ (¬ ValidReg r2 ∧ ∃ imm : Word, IntText f1 imm.toInt)) :
    memForm mk (f0 ++ 0x2C#8 :: (f1 ++ 0x28#8 :: (f2 ++ [0x29#8]))) = .error .registerError := by
  rw [memForm, memFields_text (comma_not_mem_reg h0) h1 (rparen_not_mem_reg h2)]
  by_cases hv0 : ValidReg r0
  · obtain ⟨hv2, imm, himm⟩ := hv.resolve_left (not_not_intro hv0)
    simp only [h0.parse_valid hv0, parseImm_iff.2 himm, h2.parse_invalid hv2]; rfl
  · simp only [h0.parse_invalid hv0]; rfl

/-- A register text starts with `$`, which is no whitespace, and so does what begins with it. -/
theorem RegText.head {f : Line} {r : Int} (h : RegText f r) (rest : Line) :
    ∃ t, f ++ rest = 0x24#8 :: t := by
  obtain ⟨t, r, -⟩ := h
  exact ⟨t ++ rest, rfl⟩

/-- A short line whose operands begin with a register field is decided by the parser of its operation. -/
theorem decodeLine_of_regText {o : Op} {ws f rest : Line} {r : Int} (hf : RegText f r) (hw0 : ws ≠ [])
    (hw : ∀ c ∈ ws, IsSpace c) (hl : (o.mnemonic ++ (ws ++ (f ++ rest))).length ≤ 99) :
    decodeLine (o.mnemonic ++ (ws ++ (f ++ rest))) = parseOperands o (f ++ rest) := by
  obtain ⟨t, ht⟩ := hf.head rest
  exact decodeLine_of_mnemonic ht (by decide) hw0 hw hl

/-- Settles O18: the structure is right, so the fields decide from left to right, form by form. -/
theorem registerIndexOutOfRangeIsRegisterError : Obligations.RegisterIndexOutOfRangeIsRegisterError := by
  rintro o ws ops hw0 hw hl (⟨ho, f0, f1, f2, r0, r1, r2, rfl, h0, h1, h2, hv⟩ | ⟨rfl, r, h, hv⟩ |
    ⟨ho, f0, f1, f2, r0, r1, rfl, h0, h1, h2, hv⟩ | ⟨ho, f0, f1, f2, r0, r2, rfl, h0, h1, h2, hv⟩)
  case inl =>
    rw [decodeLine_of_regText h0 hw0 hw hl]
    cases o with
    | add | sub | and | or | slt => exact threeRegs_registerError h0 h1 h2 hv
    | jr | addi | beq | lw | sw | j | jal => exact absurd ho (by decide)
  case inr.inl =>
    rw [← List.append_nil ops] at hl ⊢
    rw [decodeLine_of_regText h hw0 hw hl, List.append_nil, parseOperands, oneReg, h.parse_invalid hv]; rfl
  case inr.inr.inl =>
    rw [decodeLine_of_regText h0 hw0 hw hl]
    cases o with
    | addi | beq => exact twoRegsImm_registerError h0 h1 h2 hv
    | add | sub | and | or | slt | jr | lw | sw | j | jal => exact absurd ho (by decide)
  case inr.inr.inr =>
    rw [decodeLine_of_regText h0 hw0 hw hl]
    cases o with
    | lw | sw => exact memForm_registerError h0 h1 h2 hv
    | add | sub | and | or | slt | jr | addi | beq | j | jal => exact absurd ho (by decide)

/-- Settles O21: the Decoder is evaluated on each of the spec's lines. -/
theorem shownLinesDecode : Obligations.ShownLinesDecode := by
  unfold Obligations.ShownLinesDecode
  decide

end Sys2Proof
end

section
/-! The statements about machine words (spec/30_encoding.md R68, R70; the layout is from general knowledge, log 6). The
word decoder is one list of conditions on fields, `Op.Selects`, with one reading of the fields, `Op.readWord`: the
encoder and the rows of the opcode table are held against these two. -/

namespace Sys2Proof

/-- The fields of `w` that are fixed for the operation: its opcode, and in the R format its function code and the bits
that are zero. -/
def Op.Selects (o : Op) (w : Word) : Prop :=
  w.extractLsb' 26 6 = o.opcode ∧
  match o with
  | .add | .sub | .and | .or | .slt => w.extractLsb' 6 5 = 0#5 ∧ o.function = some (w.extractLsb' 0 6)
  | .jr => w.extractLsb' 6 15 = 0#15 ∧ o.function = some (w.extractLsb' 0 6)
  | .addi | .beq | .lw | .sw | .j | .jal => True

/-- The Instruction of the operation with the operands that stand in the other fields of `w`. -/
def Op.readWord (o : Op) (w : Word) : Instr :=
  match o with
  | .add => .add (regField w 11) (regField w 21) (regField w 16)
  | .sub => .sub (regField w 11) (regField w 21) (regField w 16)
  | .and => .and (regField w 11) (regField w 21) (regField w 16)
  | .or => .or (regField w 11) (regField w 21) (regField w 16)
  | .slt => .slt (regField w 11) (regField w 21) (regField w 16)
  | .jr => .jr 0 (regField w 21) 0
  | .addi => .addi (regField w 21) (regField w 16) (immField w)
  | .beq => .beq (regField w 21) (regField w 16) (immField w)
  | .lw => .lw (regField w 21) (regField w 16) (immField w)
  | .sw => .sw (regField w 21) (regField w 16) (immField w)
  | .j => .j (addrField w)
  | .jal => .jal (addrField w)

@[simp] theorem Op.readWord_op (o : Op) (w : Word) : (o.readWord w).op = o := by cases o <;> rfl

/-! ## The word decoder -/

/-- A three-register word whose function code is that of `o` is selected and read by `o`. -/
theorem exists_selects_of_decodeWordR {o : Op} {fn : BitVec 6} {mk} {w : Word} {i : Instr}
    (h : decodeWordR mk w = .ok i) (hop : w.extractLsb' 26 6 = 0x00#6) (hfn : (w.extractLsb' 0 6).toNat = fn.toNat)
    (hsel : w.extractLsb' 26 6 = 0x00#6 ∧ w.extractLsb' 6 5 = 0#5 ∧ some fn = some (w.extractLsb' 0 6) → o.Selects w)
    (hread : mk (regField w 11) (regField w 21) (regField w 16) = o.readWord w) :
    ∃ o : Op, o.Selects w ∧ i = o.readWord w := by
  unfold decodeWordR at h
  split at h
  · next hz =>
    cases h
    exact ⟨o, hsel ⟨hop, hz, congrArg some (BitVec.eq_of_toNat_eq hfn).symm⟩, hread⟩
  · cases h

theorem decodeWordJr_ok {w : Word} {i : Instr} (h : decodeWordJr w = .ok i) :
    w.extractLsb' 6 15 = 0#15 ∧ i = .jr 0 (regField w 21) 0 := by
  unfold decodeWordJr at h
  split at h
  · next hz => cases h; exact ⟨hz, rfl⟩
  · cases h

theorem decodeWord_of_selects {o : Op} {w : Word} (h : o.Selects w) : decodeWord w = .ok (o.readWord w) := by
  obtain ⟨hop, hfields⟩ := h
  cases o with
  | add | sub | and | or | slt =>
    obtain ⟨hz, hfn⟩ := hfields
    simp [decodeWord, hop, Op.opcode, ← Option.some.inj hfn, decodeWordR, hz, Op.readWord]
  | jr =>
    obtain ⟨hz, hfn⟩ := hfields
    simp [decodeWord, hop, Op.opcode, ← Option.some.inj hfn, decodeWordJr, hz, Op.readWord]
  | addi | beq | lw | sw | j | jal => simp [decodeWord, hop, Op.opcode, Op.readWord]

theorem selects_of_decodeWord {w : Word} {i : Instr} (h : decodeWord w = .ok i) :
    ∃ o : Op, o.Selects w ∧ i = o.readWord w := by
  unfold decodeWord at h
  split at h
  case h_1 hop =>
    have hop : w.extractLsb' 26 6 = 0x00#6 := BitVec.eq_of_toNat_eq hop
    split at h
    case h_1 hfn => exact exists_selects_of_decodeWordR (o := .add) (fn := 0x20#6) h hop hfn id rfl
    case h_2 hfn => exact exists_selects_of_decodeWordR (o := .sub) (fn := 0x22#6) h hop hfn id rfl
    case h_3 hfn => exact exists_selects_of_decodeWordR (o := .and) (fn := 0x24#6) h hop hfn id rfl
    case h_4 hfn => exact exists_selects_of_decodeWordR (o := .or) (fn := 0x25#6) h hop hfn id rfl
    case h_5 hfn => exact exists_selects_of_decodeWordR (o := .slt) (fn := 0x2A#6) h hop hfn id rfl
    case h_6 hfn =>
      obtain ⟨hz, rfl⟩ := decodeWordJr_ok h
      exact ⟨.jr, ⟨hop, hz, congrArg some (BitVec.eq_of_toNat_eq hfn).symm⟩, rfl⟩
    case h_7 => cases h
  case h_2 hop => cases h; exact ⟨.addi, ⟨BitVec.eq_of_toNat_eq hop, trivial⟩, rfl⟩
  case h_3 hop => cases h; exact ⟨.beq, ⟨BitVec.eq_of_toNat_eq hop, trivial⟩, rfl⟩
  case h_4 hop => cases h; exact ⟨.lw, ⟨BitVec.eq_of_toNat_eq hop, trivial⟩, rfl⟩
  case h_5 hop => cases h; exact ⟨.sw, ⟨BitVec.eq_of_toNat_eq hop, trivial⟩, rfl⟩
  case h_6 hop => cases h; exact ⟨.j, ⟨BitVec.eq_of_toNat_eq hop, trivial⟩, rfl⟩
  case h_7 hop => cases h; exact ⟨.jal, ⟨BitVec.eq_of_toNat_eq hop, trivial⟩, rfl⟩
  case h_8 => cases h

/-- What the word decoder reads, said once: the operation that the fixed fields select, with its operands. -/
theorem decodeWord_eq_ok {w : Word} {i : Instr} :
    decodeWord w = .ok i ↔ ∃ o : Op, o.Selects w ∧ i = o.readWord w := by
  constructor
  · exact selects_of_decodeWord
  · rintro ⟨o, hsel, rfl⟩
    exact decodeWord_of_selects hsel

/-! ## From an Instruction to its word and back -/

theorem hasWord_iff {i : Instr} : i.hasWord = true ↔ i.wellFormed = true ∧ i.operandFits = true := by
  rw [Instr.hasWord, Bool.and_eq_true]

theorem regField_of_regBits {w : Word} {lo : Nat} {r : Int} (h : w.extractLsb' lo 5 = regBits r) (hv : ValidReg r) :
    regField w lo = r := by
  rw [regField, h, toNat_regBits hv]

/-- The register operands of an R-format word are read back. -/
theorem regField_wordR {rs rt rd : Int} (hs : ValidReg rs) (ht : ValidReg rt) (hd : ValidReg rd) (fn : BitVec 6) :
    regField (wordR rs rt rd fn) 21 = rs ∧ regField (wordR rs rt rd fn) 16 = rt ∧
      regField (wordR rs rt rd fn) 11 = rd := by
  obtain ⟨-, hrs, hrt, hrd, -, -⟩ := fields_wordR rs rt rd fn
  exact ⟨regField_of_regBits hrs hs, regField_of_regBits hrt ht, regField_of_regBits hrd hd⟩

/-- The operands of an I-format word are read back, if the immediate fits. -/
theorem operands_wordI {rs rt : Int} {imm : Word} (hs : ValidReg rs) (ht : ValidReg rt)
    (hi : -32768 ≤ imm.toInt ∧ imm.toInt ≤ 32767) (op : BitVec 6) :
    regField (wordI op rs rt imm) 21 = rs ∧ regField (wordI op rs rt imm) 16 = rt ∧
      immField (wordI op rs rt imm) = imm := by
  obtain ⟨-, hrs, hrt, himm⟩ := fields_wordI op rs rt imm
  exact ⟨regField_of_regBits hrs hs, regField_of_regBits hrt ht, by rw [immField, himm, signExtend_immediate hi]⟩

theorem addrField_wordJ {address : Word} (h : address.toNat ≤ 67108863) (op : BitVec 6) :
    addrField (wordJ op address) = address := by
  rw [addrField, (fields_wordJ op address).2, setWidth_address h]

/-- The fixed fields of an Instruction's word are those of its operation. -/
theorem selects_packWord (i : Instr) : i.op.Selects (packWord i) := by
  cases i with
  | add rd rs rt | sub rd rs rt | and rd rs rt | or rd rs rt | slt rd rs rt =>
    obtain ⟨hop, -, -, -, hz, hfn⟩ := fields_wordR rs rt rd _
    exact ⟨hop, hz, congrArg some hfn.symm⟩
  | jr rd rs rt =>
    obtain ⟨hop, -, hz2, hz1, hz0, hfn⟩ := fields_wordR rs 0 0 0x08#6
    exact ⟨hop, jr_of_zero_fields hz0 hz1 hz2, congrArg some hfn.symm⟩
  | addi rs rt imm | beq rs rt imm | lw rs rt imm | sw rs rt imm => exact ⟨(fields_wordI _ rs rt imm).1, trivial⟩
  | j address | jal address => exact ⟨(fields_wordJ _ address).1, trivial⟩

/-- The other fields of an Instruction's word are its operands, if there is a word for it (R70). -/
theorem readWord_packWord {i : Instr} (h : i.hasWord = true) : i.op.readWord (packWord i) = i := by
  obtain ⟨hwf, hfit⟩ := hasWord_iff.1 h
  cases i with
  | add rd rs rt | sub rd rs rt | and rd rs rt | or rd rs rt | slt rd rs rt =>
    obtain ⟨hd, hs, ht⟩ := of_decide_eq_true hwf
    simp only [Instr.op, Op.readWord, packWord, regField_wordR hs ht hd]
  | jr rd rs rt =>
    obtain ⟨rfl, hs, rfl⟩ := of_decide_eq_true hwf
    have hzero : ValidReg 0 := by decide
    simp only [Instr.op, Op.readWord, packWord, regField_wordR hs hzero hzero]
  | addi rs rt imm | beq rs rt imm | lw rs rt imm | sw rs rt imm =>
    obtain ⟨hs, ht⟩ := of_decide_eq_true hwf
    simp only [Instr.op, Op.readWord, packWord, operands_wordI hs ht (of_decide_eq_true hfit)]
  | j address | jal address =>
    simp only [Instr.op, Op.readWord, packWord, addrField_wordJ (of_decide_eq_true hfit)]

/-- Settles O24: the word's fixed fields select the operation, and its other fields are the operands. -/
theorem encodedWordDecodesBack : Obligations.EncodedWordDecodesBack := fun i h =>
  ⟨packWord i, if_pos h, decodeWord_eq_ok.2 ⟨i.op, selects_packWord i, (readWord_packWord h).symm⟩⟩

/-! ## From a word to its Instruction and back -/

/-- Every field that the decoder reads is in the range of its operand. -/
theorem hasWord_readWord (o : Op) (w : Word) : (o.readWord w).hasWord = true := by
  have hreg := validReg_regField w
  refine hasWord_iff.2 ?_
  cases o with
  | add | sub | and | or | slt => exact ⟨decide_eq_true ⟨hreg 11, hreg 21, hreg 16⟩, rfl⟩
  | jr => exact ⟨decide_eq_true ⟨rfl, hreg 21, rfl⟩, rfl⟩
  | addi | beq | lw | sw => exact ⟨decide_eq_true ⟨hreg 21, hreg 16⟩, decide_eq_true (immField_range w)⟩
  | j | jal => exact ⟨rfl, decide_eq_true (addrField_range w)⟩

theorem packWord_readWord {o : Op} {w : Word} (h : o.Selects w) : packWord (o.readWord w) = w := by
  obtain ⟨hop, hfields⟩ := h
  cases o with
  | add | sub | and | or | slt =>
    obtain ⟨hz, hfn⟩ := hfields
    exact wordR_regFields hop hz (Option.some.inj hfn).symm
  | jr =>
    obtain ⟨hz, hfn⟩ := hfields
    obtain ⟨hz0, hz1, hz2⟩ := zero_fields_of_jr hz
    have hrt : regField w 16 = 0 := by rw [regField, hz2]; rfl
    have hrd : regField w 11 = 0 := by rw [regField, hz1]; rfl
    have hw := wordR_regFields hop hz0 (Option.some.inj hfn).symm
    rwa [hrt, hrd] at hw
  | addi | beq | lw | sw => exact wordI_regFields hop
  | j | jal => exact wordJ_addrField hop

/-- Settles O25: the fields a word decodes from are all of its bits. -/
theorem decodedWordEncodesBack : Obligations.DecodedWordEncodesBack := by
  intro w i h
  obtain ⟨o, hsel, rfl⟩ := decodeWord_eq_ok.1 h
  rw [encode, if_pos (hasWord_readWord o w), packWord_readWord hsel]

/-! ## The opcode table -/

/-- A row's mask and match value ask of the fields what the word decoder asks of them. -/
theorem wordRow_iff_selects {w : Word} {row : WordRow} (h : row ∈ wordRows) :
    w &&& row.mask = row.pattern ↔ row.op.Selects w := by
  have hR {o : Op} {fn : BitVec 6} (ho : o.Selects w ↔
      w.extractLsb' 26 6 = 0#6 ∧ w.extractLsb' 6 5 = 0#5 ∧ some fn = some (w.extractLsb' 0 6)) :
      w &&& 0xFC0007FF#32 = fn.setWidth 32 ↔ o.Selects w := by
    rw [match_rowR, ho, Option.some.injEq, eq_comm (a := fn)]
  have hOpcode {o : Op} (ho : o.Selects w ↔ w.extractLsb' 26 6 = o.opcode ∧ True) :
      w &&& 0xFC000000#32 = o.opcode.setWidth 32 <<< 26 ↔ o.Selects w := by
    rw [match_rowOpcode, ho, and_true]
  simp only [wordRows, List.mem_cons, List.not_mem_nil, or_false] at h
  rcases h with rfl | rfl | rfl | rfl | rfl | rfl | rfl | rfl | rfl | rfl | rfl | rfl
  · exact hR (fn := 0x20#6) .rfl
  · exact hR (fn := 0x22#6) .rfl
  · exact hR (fn := 0x24#6) .rfl
  · exact hR (fn := 0x25#6) .rfl
  · exact hR (fn := 0x2A#6) .rfl
  · rw [match_rowJr, Op.Selects, Op.function, Option.some.injEq, eq_comm (a := 0x08#6)]; rfl
  · exact hOpcode (o := .addi) .rfl
  · exact hOpcode (o := .beq) .rfl
  · exact hOpcode (o := .lw) .rfl
  · exact hOpcode (o := .sw) .rfl
  · exact hOpcode (o := .j) .rfl
  · exact hOpcode (o := .jal) .rfl

/-- Settles O26: the row and the word decoder select by the same fields. -/
theorem wordRowsSelectTheOperation : Obligations.WordRowsSelectTheOperation := by
  intro w row hrow
  rw [wordRow_iff_selects hrow]
  constructor
  · exact fun hsel => ⟨_, decodeWord_of_selects hsel, Op.readWord_op _ w⟩
  · rintro ⟨i, hi, hop⟩
    obtain ⟨o, hsel, rfl⟩ := decodeWord_eq_ok.1 hi
    rwa [← hop, Op.readWord_op]

/-- Settles O23: the word decoder is evaluated on each of the spec's words. -/
theorem shownWordsDecode : Obligations.ShownWordsDecode := by
  unfold Obligations.ShownWordsDecode
  decide

end Sys2Proof
end

section
/-! The statements about the errors of `execute` (spec/41_executor_common.md R123, R128; spec/60_exceptions.md R180), each
read off the shapes a next state can have. -/

namespace Sys2Proof.Machine

/-- A step that returns RegisterError failed its register check (R123). -/
theorem Shape.bad_of_registerError {i : Instr} {s t : State} (h : Shape i s t)
    (hr : t.Returned (.error .registerError)) : ∃ r ∈ i.meaningfulRegs, ¬ ValidReg r := by
  cases h with
  | badRegister hbad => exact hbad
  | badAddress | overflow | wrote | stored | untaken | transferred | linked => nomatch hr

/-- A step whose register check fails returns RegisterError and changes nothing else: it is the first check (R121). -/
theorem Shape.eq_of_bad {i : Instr} {s t : State} (h : Shape i s t) (hbad : ∃ r ∈ i.meaningfulRegs, ¬ ValidReg r) :
    t = s.returnErr .registerError := by
  obtain ⟨r, hr, hnv⟩ := hbad
  cases h with
  | badRegister => rfl
  | badAddress hv | overflow hv | wrote hv | stored hv | untaken hv | transferred hv => exact absurd (hv r hr) hnv
  | linked _ _ hop =>
    cases i with
    | jal => exact absurd hr List.not_mem_nil
    | add | sub | and | or | slt | jr | addi | beq | lw | sw | j => nomatch hop

/-- Settles O43: by inversion a RegisterError comes from a bad field, and a bad field from no other shape. -/
theorem registerErrorExactlyForBadFields : Obligations.RegisterErrorExactlyForBadFields := by
  refine fun i s => ⟨fun hbad => ?_, fun hv t ⟨hn, hr, _⟩ => ?_⟩
  · obtain ⟨t, hn, hs⟩ := exec_shape i s
    obtain rfl := hs.eq_of_bad hbad
    exact ⟨_, ⟨hn, rfl, rfl⟩, fun _ => rfl, fun _ => rfl, rfl⟩
  · obtain ⟨r, hmem, hnv⟩ := (shape_of_exec hn).bad_of_registerError hr
    exact hnv (hv r hmem)

/-- An Instruction with a meaningful register field can return RegisterError (R180, first column). -/
theorem registerError_mem_errors {i : Instr} {r : Int} (h : r ∈ i.meaningfulRegs) :
    .registerError ∈ i.op.errors := by
  cases i with
  | add | sub | and | or | slt | jr | addi | beq | lw | sw => exact List.mem_cons_self
  | j | jal => exact absurd h List.not_mem_nil

/-- Settles O45: each shape of a failed step tells which operations have it. -/
theorem errorsFollowTheMatrix : Obligations.ErrorsFollowTheMatrix := by
  rintro i s t e ⟨hn, hr, -⟩
  cases shape_of_exec hn with
  | badRegister hbad =>
    obtain ⟨r, hmem, -⟩ := hbad
    cases hr
    exact registerError_mem_errors hmem
  | badAddress _ hmem => cases hr; exact hmem
  | overflow _ hop => cases hr; rcases hop with h | h | h <;> rw [h] <;> decide
  | wrote | stored | untaken | transferred | linked => nomatch hr

/-- Settles O33: one shape alone returns OverflowError, and its pc is `advanceBy overflowPcStep`. -/
theorem overflowAdvancesPcByFour : Obligations.OverflowAdvancesPcByFour := by
  rintro i s t ⟨hn, hr, -⟩
  cases shape_of_exec hn with
  | overflow _ hop => exact ⟨hop, s.advanceBy_pc overflowPcStep, fun _ => rfl, fun _ => rfl⟩
  | badRegister | badAddress | wrote | stored | untaken | transferred | linked => nomatch hr

end Sys2Proof.Machine
end

section
/-! The statements about a step and the calls it serves (spec/00_scope.md R4, R7, R8): what serving a call does, the
invariant every step keeps (spec/10_state.md R27), and the liveness of the queue (spec/70_reset_and_hazards.md R206). -/

namespace Sys2Proof.Machine

/-! ## Serving a call -/

@[simp] theorem serve_execute (i : Instr) (s : State) : serve (.execute i) s = exec i s := rfl

@[simp] theorem serve_decode (l : Line) (s : State) :
    serve (.decode l) s = .next (s.returnValue (.decoded (decodeLine l))) := rfl

@[simp] theorem serve_reset (s : State) : serve .reset s = .next { State.reset with calls := s.calls } := rfl

theorem serve_submit_ok {l : Line} {i : Instr} (h : decodeLine l = .ok i) (s : State) :
    serve (.submit l) s = exec i s := by
  simp only [serve, h]

theorem serve_submit_error {l : Line} {e : DecodeError} (h : decodeLine l = .error e) (s : State) :
    serve (.submit l) s = .next (s.returnValue (.decoded (.error e))) := by
  simp only [serve, h]

theorem step_nil {s : State} (h : s.calls = []) : step s = .next s := by
  simp only [step, h]

theorem step_cons {s : State} {c : Call} {rest : List Call} (h : s.calls = c :: rest) :
    step s = serve c { s with calls := rest } := by
  simp only [step, h]

/-- Settles O8: the step and the call it serves, case by case. -/
theorem stepRunsTheDecodedInstruction : Obligations.StepRunsTheDecodedInstruction :=
  ⟨fun _ _ _ _ hc hl => (step_cons hc).trans (serve_submit_ok hl _), fun _ _ _ hc => step_cons hc, fun _ => step_nil⟩

/-- Settles O9: a decode, alone or failed, ends in `returnValue`, which sets the result and nothing else. -/
theorem decodeAloneChangesNothing : Obligations.DecodeAloneChangesNothing :=
  ⟨fun _ _ _ _ hc hl => (step_cons hc).trans (serve_submit_error hl _), fun _ _ _ hc => step_cons hc⟩

/-- Settles O10: the state a reset call answers keeps nothing of the old one but its waiting calls. -/
theorem resetCallGivesFreshState : Obligations.ResetCallGivesFreshState := fun _ _ hc => step_cons hc

/-- Settles O6: register 0 has no storage, so there is nothing to read or to write (R22). -/
theorem registerZeroIsConstant : Obligations.RegisterZeroIsConstant := fun _ _ => ⟨rfl, rfl⟩

/-- What serving a call can do, said once: run an Instruction, record what a decode returned, or reset. -/
theorem serve_cases (c : Call) (s : State) :
    (∃ i, serve c s = exec i s) ∨ (∃ d, serve c s = .next (s.returnValue (.decoded d))) ∨
    serve c s = .next { State.reset with calls := s.calls } := by
  cases c with
  | submit l =>
    cases hl : decodeLine l with
    | ok i => exact .inl ⟨i, serve_submit_ok hl s⟩
    | error e => exact .inr (.inl ⟨_, serve_submit_error hl s⟩)
  | decode l => exact .inr (.inl ⟨_, serve_decode l s⟩)
  | execute i => exact .inl ⟨i, serve_execute i s⟩
  | reset => exact .inr (.inr (serve_reset s))

/-! ## The invariant -/

/-- The advance by one instruction keeps alignment, also where it wraps: 4 divides 2^32 (R126). -/
theorem aligned_add_four {p : Word} (h : p.toNat % 4 = 0) : (p + 4#32).toNat % 4 = 0 := by
  rw [BitVec.toNat_add, BitVec.toNat_ofNat]
  omega

theorem aligned_target {z : Int} (h : ValidTarget z) : (wrap32 z).toNat % 4 = 0 := by
  have hz := toNat_wrap32_target h
  obtain ⟨-, -, hmod⟩ := h
  omega

/-- Settles O2: the empty memory is canonical and pc 0 is aligned. -/
theorem resetMeetsInvariant : Obligations.ResetMeetsInvariant := ⟨Memory.wf_reset, rfl⟩

/-- Every shape of a next state keeps the invariant: the memory changes by a write at an index that exists, and pc stays,
advances by 4 or becomes a valid target. -/
theorem Shape.inv {i : Instr} {s t : State} (h : Shape i s t) (hs : s.Inv) : t.Inv := by
  obtain ⟨hmem, hpc⟩ := hs
  have hadvance := aligned_add_four hpc
  cases h with
  | badRegister | badAddress => exact ⟨hmem, hpc⟩
  | overflow | untaken => exact ⟨hmem, by simpa [overflowPcStep, Config.isize] using hadvance⟩
  | wrote _ d v => exact ⟨by simpa using hmem, by simpa using hadvance⟩
  | stored _ a v => exact ⟨Memory.wf_write a hmem, by simpa [Config.isize] using hadvance⟩
  | transferred _ z hz => exact ⟨hmem, aligned_target hz⟩
  | linked z hz => exact ⟨by simpa using hmem, aligned_target hz⟩

theorem serve_inv {c : Call} {s t : State} (hs : s.Inv) (h : serve c s = .next t) : t.Inv := by
  obtain ⟨i, hi⟩ | ⟨d, hd⟩ | hreset := serve_cases c s
  · exact (shape_of_exec (hi ▸ h)).inv hs
  · cases hd.symm.trans h; exact hs
  · cases hreset.symm.trans h; exact resetMeetsInvariant

/-- Settles O3: taking a call away leaves memory and pc alone, and serving it keeps the invariant. -/
theorem stepKeepsInvariant : Obligations.StepKeepsInvariant := by
  intro s t hs h
  cases hc : s.calls with
  | nil => cases (step_nil hc).symm.trans h; exact hs
  | cons c rest =>
    rw [step_cons hc] at h
    exact serve_inv (s := { s with calls := rest }) hs h

/-! ## The queue -/

/-- Serving a call always answers a next state, and it adds no call. -/
theorem serve_total (c : Call) (s : State) : ∃ t, serve c s = .next t ∧ t.calls = s.calls := by
  obtain ⟨i, hi⟩ | ⟨d, hd⟩ | hreset := serve_cases c s
  · obtain ⟨t, ht, hs⟩ := exec_shape i s
    exact ⟨t, hi.trans ht, hs.calls_eq⟩
  · exact ⟨_, hd, rfl⟩
  · exact ⟨_, hreset, rfl⟩

theorem run_succ {k : Nat} {s t : State} (h : step s = .next t) :
    Host.Core.run core (k + 1) s = Host.Core.run core k t := by
  simp only [Host.Core.run, core, h]

/-- As many steps as there are calls serve them all: induction on the calls that wait. -/
theorem run_serves {calls : List Call} {s : State} (h : s.calls = calls) :
    ∃ t : State, Host.Core.run core calls.length s = .next t ∧ t.calls = [] := by
  induction calls generalizing s with
  | nil => exact ⟨s, rfl, h⟩
  | cons c rest ih =>
    obtain ⟨u, hu, hcalls⟩ := serve_total c { s with calls := rest }
    rw [List.length_cons, run_succ ((step_cons h).trans hu)]
    exact ih hcalls

/-- Settles O5: the induction on the waiting calls, at those of the state itself. -/
theorem everyWaitingCallIsServed : Obligations.EveryWaitingCallIsServed := fun _ => run_serves rfl

/-! ## Submitted lines and placed words -/

/-- A well-formed Instruction passes the register check (R65, R123). -/
theorem validReg_of_wellFormed {i : Instr} (h : i.wellFormed = true) : ∀ r ∈ i.meaningfulRegs, ValidReg r := by
  cases i with
  | add | sub | and | or | slt | addi | beq | lw | sw =>
    simpa [Instr.wellFormed, Instr.meaningfulRegs] using h
  | jr rd rs rt =>
    obtain ⟨-, hs, -⟩ := of_decide_eq_true h
    simpa [Instr.meaningfulRegs] using hs
  | j | jal => exact List.forall_mem_nil _

/-- Settles O12: what the Decoder emits is well-formed, so the register check passes; after a decode error nothing is
executed. -/
theorem submittedLineNeverFailsRegisterCheck : Obligations.SubmittedLineNeverFailsRegisterCheck := by
  intro s t l rest hc h hr
  rw [step_cons hc] at h
  cases hl : decodeLine l with
  | ok i =>
    rw [serve_submit_ok hl] at h
    obtain ⟨r, hmem, hnv⟩ := (shape_of_exec h).bad_of_registerError hr
    exact hnv (validReg_of_wellFormed (decodedInstructionIsWellFormed l i hl) r hmem)
  | error e =>
    rw [serve_submit_error hl] at h
    cases h
    nomatch hr

/-- The Instruction of a table word is one of the well-formed ones, since it was read from a word. -/
theorem wellFormed_of_decodeTableWord {nbits w : Nat} {i : Instr} (h : decodeTableWord nbits w = some i) :
    i.wellFormed = true := by
  unfold decodeTableWord at h
  split at h
  · cases hw : decodeWord (BitVec.ofNat 32 (w % 2 ^ nbits)) with
    | ok i' =>
      obtain ⟨o, -, rfl⟩ := decodeWord_eq_ok.1 hw
      rw [hw] at h
      cases h
      exact (hasWord_iff.1 (hasWord_readWord o _)).1
    | error e => rw [hw] at h; nomatch h
  · nomatch h

/-- Settles O11: the line of the word's Instruction is the encoder's, which decodes back to it. -/
theorem placedWordRunsNext : Obligations.PlacedWordRunsNext := by
  intro nbits w i s h
  have hline : decodeLine (lineOfTableWord nbits w) = .ok i := by
    rw [lineOfTableWord, h]
    exact decodeLine_encodeLine (wellFormed_of_decodeTableWord h)
  exact (step_cons (s := s.withFetchWord nbits w) rfl).trans (serve_submit_ok hline s)

/-! ## pc after an Ok step -/

/-- The Instruction transfers control in `s`: JR, J, JAL, or BEQ with equal registers (R127). -/
def TakesTransfer (i : Instr) (s : State) : Prop :=
  i.op = .jr ∨ i.op = .j ∨ i.op = .jal ∨
    ∃ (a b : Reg) (imm : Word), i = .beq a.num b.num imm ∧ s.register a = s.register b

theorem TakesTransfer.op_mem {i : Instr} {s : State} (h : TakesTransfer i s) : i.op ∈ [Op.jr, .j, .jal, .beq] := by
  rcases h with h | h | h | ⟨a, b, imm, rfl, -⟩
  · rw [h]; decide
  · rw [h]; decide
  · rw [h]; decide
  · exact (by decide : Op.beq ∈ [Op.jr, .j, .jal, .beq])

/-- An Instruction that writes a destination register transfers control only if it is JAL (R23). -/
theorem not_takesTransfer_of_destination {i : Instr} {s : State} {r : Int} (h : i.destination = some r)
    (hj : i.op ≠ .jal) : ¬ TakesTransfer i s := fun ht => by
  cases i with
  | jr | beq | sw | j => nomatch h
  | jal => exact hj rfl
  | add | sub | and | or | slt | addi | lw => simpa [Instr.op] using ht.op_mem

/-- A BEQ on unequal registers does not transfer control (R163). -/
theorem not_takesTransfer_of_untaken {a b : Reg} {imm : Word} {s : State} (h : s.register a ≠ s.register b) :
    ¬ TakesTransfer (.beq a.num b.num imm) s := by
  rintro (hop | hop | hop | ⟨a', b', imm', hi, heq⟩)
  · nomatch hop
  · nomatch hop
  · nomatch hop
  · simp only [Instr.beq.injEq, num_inj] at hi
    obtain ⟨rfl, rfl, -⟩ := hi
    exact h heq

/-- After an Ok step pc is a valid target, or it has advanced by 4 and the Instruction was no transfer (R126, R127). -/
theorem Shape.pc_of_ok {i : Instr} {s t : State} (h : Shape i s t) (hr : t.Returned (.ok ())) :
    (∃ z, ValidTarget z ∧ t.pc = wrap32 z) ∨ (t.pc = s.pc + 4#32 ∧ ¬ TakesTransfer i s) := by
  cases h with
  | badRegister | badAddress | overflow => nomatch hr
  | transferred _ z hz | linked z hz => exact .inl ⟨z, hz, rfl⟩
  | wrote _ d v hd hj => exact .inr ⟨s.writeBack_pc d v, not_takesTransfer_of_destination hd hj⟩
  | stored _ a v hop =>
    exact .inr ⟨State.advanceBy_pc _ Config.isize, fun ht => absurd (hop ▸ ht.op_mem) (by decide)⟩
  | untaken _ hne =>
    obtain ⟨a, b, imm, rfl, hne⟩ := hne
    exact .inr ⟨s.advanceBy_pc Config.isize, not_takesTransfer_of_untaken hne⟩

theorem valid_of_target {t : State} {z : Int} (hz : ValidTarget z) (h : t.pc = wrap32 z) : t.Valid := by
  refine ⟨h ▸ aligned_target hz, ?_⟩
  have hpc := toNat_wrap32_target hz
  obtain ⟨-, hlt, -⟩ := hz
  rw [h]
  omega

/-- Settles O7: a transfer ends at a valid target, and an advance by 4 from at most 4088 stays below 4096. -/
theorem okStepKeepsPcValid : Obligations.OkStepKeepsPcValid := by
  rintro i s t ⟨haligned, hlt⟩ ⟨hn, hr, -⟩
  obtain ⟨z, hz, hpc⟩ | ⟨hpc, hno⟩ := (shape_of_exec hn).pc_of_ok hr
  · exact ⟨hpc ▸ aligned_target hz, fun _ => valid_of_target hz hpc⟩
  · have hadvance : t.pc.toNat % 4 = 0 := hpc ▸ aligned_add_four haligned
    refine ⟨hadvance, fun hcase => ⟨hadvance, ?_⟩⟩
    have hcase' : TakesTransfer i s ∨ s.pc.toNat ≤ 4088 := by simpa only [TakesTransfer, or_assoc] using hcase
    have hle := hcase'.resolve_left hno
    rw [hpc, BitVec.toNat_add, BitVec.toNat_ofNat, Config.pcLimit]
    omega

end Sys2Proof.Machine
end

section
/-! The statements about ADD, SUB and ADDI (spec/42_alu.md R136 to R138, R142). They share one end, so what it does is one
lemma, and a statement adds the exact result its operation computes. -/

namespace Sys2Proof.Machine

/-- A step that ends in `checkedWriteBack` writes the exact result `m` and returns Ok if it fits, and else moves pc alone
and returns OverflowError (R128, R136). -/
theorem executes_of_checkedWriteBack {i : Instr} {s : State} {d : Reg} {m : Int}
    (h : exec i s = .next (s.checkedWriteBack d m)) :
    (¬ Overflow m → ∃ (t : State) (v : Word), Executes i s t (.ok ()) ∧ v.toInt = m ∧
      WritesRegister s t d v ∧ SameMemory s t ∧ t.pc = s.pc + 4#32) ∧
    (Overflow m → ∃ t : State, Executes i s t (.error .overflowError) ∧
      SameRegisters s t ∧ SameMemory s t ∧ t.pc = s.pc + BitVec.ofNat 32 overflowPcStep) := by
  obtain ⟨ho, he⟩ | ⟨ho, he⟩ := s.checkedWriteBack_cases d m
  · rw [he] at h
    exact ⟨fun hno => absurd ho hno, fun _ =>
      ⟨_, ⟨h, rfl, rfl⟩, fun _ => rfl, fun _ => rfl, s.advanceBy_pc overflowPcStep⟩⟩
  · rw [he] at h
    obtain ⟨hex, hframe⟩ := executes_of_writeBack h
    exact ⟨fun _ => ⟨_, _, hex, toInt_wrap32 ho, hframe⟩, fun hyes => absurd hyes ho⟩

/-- Settles O27: ADD ends in the checked write of the exact sum. -/
theorem addWritesExactSumOrReportsOverflow : Obligations.AddWritesExactSumOrReportsOverflow :=
  fun d a b s => executes_of_checkedWriteBack (withRegs3_num d a b s _)

/-- Settles O28: SUB ends in the checked write of the exact difference, the first source minus the second. -/
theorem subWritesExactDifferenceOrReportsOverflow : Obligations.SubWritesExactDifferenceOrReportsOverflow :=
  fun d a b s => executes_of_checkedWriteBack (withRegs3_num d a b s _)

/-- Settles O32: ADDI ends in the checked write of the exact sum with the whole immediate, to `rt`. -/
theorem addiWritesExactSumOrReportsOverflow : Obligations.AddiWritesExactSumOrReportsOverflow :=
  fun a d _ s => executes_of_checkedWriteBack (withRegs2_num a d s _)

/-- The printed test compares with a bound less one operand, which is the exact sum beyond that bound. The sign it asks
for first is implied, since the other operand is in range (R136). -/
theorem addOverflowTest_iff {a b : Int} (ha : -2147483648 ≤ a ∧ a ≤ 2147483647)
    (hb : -2147483648 ≤ b ∧ b ≤ 2147483647) : addOverflowTest a b ↔ Overflow (a + b) := by
  simp only [addOverflowTest, Overflow, Config.intMax, Config.intMin]
  omega

/-- The mirrored test, likewise (D15). -/
theorem subOverflowTest_iff {a b : Int} (ha : -2147483648 ≤ a ∧ a ≤ 2147483647)
    (hb : -2147483648 ≤ b ∧ b ≤ 2147483647) : subOverflowTest a b ↔ Overflow (a - b) := by
  simp only [subOverflowTest, Overflow, Config.intMax, Config.intMin]
  omega

/-- Settles O34: both tests are exact for operands in the range of a word. -/
theorem overflowTestsAreExact : Obligations.OverflowTestsAreExact := fun a b =>
  ⟨addOverflowTest_iff (toInt_range a) (toInt_range b), subOverflowTest_iff (toInt_range a) (toInt_range b)⟩

end Sys2Proof.Machine
end

section
/-! The statements about LW and SW (spec/43_load_store.md R150 to R152): their lines are the encoder's, and both end in an
access to the word whose index is the exact sum of base and immediate. -/

namespace Sys2Proof.Machine

/-- The printed line of a load or store is the encoder's, `l` being the mnemonic, one space and the first `$`; so it
decodes to its Instruction (R100). -/
theorem decodeLine_memForm {l : Line} {i : Instr} {b d : Reg} {imm : Word} (hl : l = i.op.mnemonic ++ [0x20#8, 0x24#8])
    (hops : operandText i = operandText (.lw b.num d.num imm)) (hwf : i.wellFormed = true) :
    decodeLine (l ++ natText d.val ++ text "," ++ intText imm.toInt ++ text "($" ++ natText b.val ++ text ")") =
      .ok i := by
  have hcomma : text "," = [0x2C#8] := rfl
  have hopen : text "($" = [0x28#8, 0x24#8] := rfl
  have hclose : text ")" = [0x29#8] := rfl
  rw [← decodeLine_encodeLine hwf, encodeLine, hops, operandText]
  simp [hl, hcomma, hopen, hclose, regText_num]

theorem exec_lw_num (b d : Reg) (imm : Word) (s : State) : exec (.lw b.num d.num imm) s =
    .next (s.withMemIndex (effectiveAddress (s.register b) imm) fun ea => s.writeBack d (s.memory ea)) :=
  withRegs2_num b d s _

theorem exec_sw_num (b v : Reg) (imm : Word) (s : State) : exec (.sw b.num v.num imm) s =
    .next (s.withMemIndex (effectiveAddress (s.register b) imm) fun ea =>
      ((s.storeWord ea (s.register v)).advanceBy Config.isize).returnOk) :=
  withRegs2_num b v s _

/-- An access to a word index that does not exist returns MemoryError and changes nothing (R150). -/
theorem executes_of_withMemIndex_err {i : Instr} {s : State} {z : Int} {access : MemIndex → State}
    (h : exec i s = .next (s.withMemIndex z access)) (hz : ¬ ValidMemAddr z) :
    ∃ t : State, Executes i s t (.error .memoryError) ∧ SameMachine s t := by
  rw [s.withMemIndex_err access hz] at h
  exact ⟨_, ⟨h, rfl, rfl⟩, fun _ => rfl, fun _ => rfl, rfl⟩

/-- A load at a word index that exists (R151). -/
theorem executes_lw {b d : Reg} {imm : Word} {s : State} {ea : MemIndex}
    (h : (ea.val : Int) = (s.register b).toInt + imm.toInt) :
    ∃ t : State, Executes (.lw b.num d.num imm) s t (.ok ()) ∧
      WritesRegister s t d (s.memory ea) ∧ SameMemory s t ∧ t.pc = s.pc + 4#32 :=
  ⟨_, executes_of_writeBack ((exec_lw_num b d imm s).trans (congrArg _ (s.withMemIndex_ok _ h.symm)))⟩

/-- A store at a word index that exists (R152). -/
theorem executes_sw {b v : Reg} {imm : Word} {s : State} {ea : MemIndex} (hm : s.mem.wf = true)
    (h : (ea.val : Int) = (s.register b).toInt + imm.toInt) :
    ∃ t : State, Executes (.sw b.num v.num imm) s t (.ok ()) ∧
      WritesMemory s t ea (s.register v) ∧ SameRegisters s t ∧ t.pc = s.pc + 4#32 :=
  ⟨_, ⟨(exec_sw_num b v imm s).trans (congrArg _ (s.withMemIndex_ok _ h.symm)), rfl, rfl⟩,
    fun a => State.memory_storeWord hm ea a (s.register v), fun _ => rfl, State.advanceBy_pc _ Config.isize⟩

/-- Settles O35: the encoder's line, and the two outcomes of the address test. -/
theorem lwLoadsTheWordAtTheIndex : Obligations.LwLoadsTheWordAtTheIndex := by
  refine ⟨fun b d imm => ?_, rfl, fun b d imm s => ⟨fun ea => executes_lw, ?_⟩⟩
  · exact decodeLine_memForm rfl rfl (decide_eq_true ⟨validReg_num b, validReg_num d⟩)
  · exact executes_of_withMemIndex_err (exec_lw_num b d imm s)

/-- Settles O36: the encoder's line, and the two outcomes of the address test. -/
theorem swStoresTheWordAtTheIndex : Obligations.SwStoresTheWordAtTheIndex := by
  refine ⟨fun b v imm => ?_, rfl, fun b v imm s hm => ⟨fun ea => executes_sw hm, ?_⟩⟩
  · exact decodeLine_memForm rfl rfl (decide_eq_true ⟨validReg_num b, validReg_num v⟩)
  · exact executes_of_withMemIndex_err (exec_sw_num b v imm s)

/-- A store that returned Ok addressed a word that exists. -/
theorem exists_memIndex_of_sw_ok {b v : Reg} {imm : Word} {s t : State}
    (h : Executes (.sw b.num v.num imm) s t (.ok ())) :
    ∃ ea : MemIndex, (ea.val : Int) = (s.register b).toInt + imm.toInt := by
  by_contra hno
  have hz : ¬ ValidMemAddr (effectiveAddress (s.register b) imm) := fun ⟨h0, h1⟩ =>
    hno ⟨⟨(effectiveAddress (s.register b) imm).toNat, by omega⟩, Int.toNat_of_nonneg h0⟩
  obtain ⟨u, hu, -⟩ := executes_of_withMemIndex_err (exec_sw_num b v imm s) hz
  nomatch (h.unique hu).2

/-- Settles O37: the store and the load address one word, which holds the stored value in between. -/
theorem loadAfterStoreReadsTheStoredWord : Obligations.LoadAfterStoreReadsTheStoredWord := by
  intro b v b' d imm imm' s t u hm hsw hlw hsum r
  obtain ⟨ea, hea⟩ := exists_memIndex_of_sw_ok hsw
  obtain ⟨t', hsw', hmem, hregs, -⟩ := executes_sw (v := v) hm hea
  obtain ⟨rfl, -⟩ := hsw.unique hsw'
  have hea' : (ea.val : Int) = (t'.register b').toInt + imm'.toInt := by rw [hregs b', hsum, hea]
  obtain ⟨u', hlw', hwrites, -⟩ := executes_lw (d := d) hea'
  obtain ⟨rfl, -⟩ := hlw.unique hlw'
  rw [hwrites r, hmem ea, if_pos rfl, hregs r]

end Sys2Proof.Machine
end

section
/-! The statements about JR, BEQ, J and JAL (spec/44_control_transfer.md R160 to R168): all but an untaken BEQ end in a
transfer to a target. -/

namespace Sys2Proof.Machine

/-- A step that ends in a transfer without a link sets pc to the target, or returns MemoryError with nothing changed
(R127, R160). -/
theorem executes_of_transfer {i : Instr} {s : State} {z : Int} (h : exec i s = .next (s.transfer z id)) :
    (ValidTarget z → ∃ t : State, Executes i s t (.ok ()) ∧
      (t.pc.toNat : Int) = z ∧ SameRegisters s t ∧ SameMemory s t) ∧
    (¬ ValidTarget z → ∃ t : State, Executes i s t (.error .memoryError) ∧ SameMachine s t) := by
  obtain ⟨hz, he⟩ | ⟨hz, he⟩ := s.transfer_cases z id <;> rw [he] at h
  · exact ⟨fun _ => ⟨_, ⟨h, rfl, rfl⟩, toNat_wrap32_target hz, fun _ => rfl, fun _ => rfl⟩, fun hno => absurd hz hno⟩
  · exact ⟨fun hyes => absurd hyes hz, fun _ => ⟨_, ⟨h, rfl, rfl⟩, fun _ => rfl, fun _ => rfl, rfl⟩⟩

/-- Settles O38: the target is the register value itself. -/
theorem jrSetsPcToTheRegister : Obligations.JrSetsPcToTheRegister :=
  fun _ _ a s => executes_of_transfer (withReg_num a s _)

theorem exec_beq_num (a b : Reg) (imm : Word) (s : State) : exec (.beq a.num b.num imm) s =
    .next (if s.register a = s.register b then s.transfer (branchTarget s.pc imm) id
      else (s.advanceBy Config.isize).returnOk) := withRegs2_num a b s _

/-- Settles O39: unequal registers advance, equal ones transfer to a target counted from the current pc. -/
theorem beqBranchesFromTheCurrentPc : Obligations.BeqBranchesFromTheCurrentPc := by
  intro a b imm s
  have hexec := exec_beq_num a b imm s
  by_cases heq : s.register a = s.register b
  · rw [if_pos heq] at hexec
    obtain ⟨hok, herr⟩ := executes_of_transfer hexec
    exact ⟨fun hne => absurd heq hne, fun _ => hok, fun _ => herr⟩
  · rw [if_neg heq] at hexec
    exact ⟨fun _ => ⟨_, ⟨hexec, rfl, rfl⟩, s.advanceBy_pc Config.isize, fun _ => rfl, fun _ => rfl⟩,
      fun h => absurd h heq, fun h => absurd h heq⟩

/-- An exact product 4 * address is always aligned, so it is a target up to 1023 and no further (D17). -/
theorem validTarget_jumpTarget {address : Word} : ValidTarget (jumpTarget address) ↔ address.toNat ≤ 1023 := by
  simp only [ValidTarget, jumpTarget, Config.pcLimit]
  omega

/-- Settles O40: the encoder's line, and the two outcomes of the target test. -/
theorem jumpSetsPcToFourTimesAddress : Obligations.JumpSetsPcToFourTimesAddress := by
  refine ⟨fun address => decodeLine_encodeLine (i := .j address) rfl, rfl, fun address s => ?_⟩
  obtain ⟨hok, herr⟩ := executes_of_transfer (i := .j address) (s := s) rfl
  refine ⟨fun hle => ?_, fun hlt => herr fun hz => Nat.not_le.2 hlt (validTarget_jumpTarget.1 hz)⟩
  obtain ⟨t, hex, hpc, hframe⟩ := hok (validTarget_jumpTarget.2 hle)
  exact ⟨t, hex, Int.ofNat_inj.1 hpc, hframe⟩

/-- The link value is the 32-bit sum: `wrap32` of the exact one (R167, D24). -/
theorem link_eq (p : Word) : wrap32 ((p.toNat : Int) + 4) = p + 4#32 :=
  State.advanceBy_pc { State.reset with pc := p } 4

theorem exec_jal (address : Word) (s : State) : exec (.jal address) s =
    .next (s.transfer (jumpTarget address) (·.setRegister Config.linkReg (wrap32 ((s.pc.toNat : Int) + 4)))) := rfl

/-- JAL to a target that exists sets pc and register 31 (R167). -/
theorem executes_jal {address : Word} (s : State) (h : address.toNat ≤ 1023) :
    ∃ t : State, Executes (.jal address) s t (.ok ()) ∧
      t.pc.toNat = 4 * address.toNat ∧ WritesRegister s t 31 (s.pc + 4#32) ∧ SameMemory s t := by
  have hz := validTarget_jumpTarget.2 h
  refine ⟨_, ⟨(exec_jal address s).trans (congrArg _ (s.transfer_ok _ hz)), rfl, State.setRegister_calls ..⟩,
    Int.ofNat_inj.1 (toNat_wrap32_target hz), fun r => ?_, State.memory_congr (State.setRegister_mem ..)⟩
  rw [link_eq, State.register_returnOk, State.register_setPc, State.register_setRegister]

theorem executes_jal_err {address : Word} (s : State) (h : 1023 < address.toNat) :
    ∃ t : State, Executes (.jal address) s t (.error .memoryError) ∧ SameMachine s t := by
  have hz : ¬ ValidTarget (jumpTarget address) := fun hz => Nat.not_le.2 h (validTarget_jumpTarget.1 hz)
  exact ⟨_, ⟨(exec_jal address s).trans (congrArg _ (s.transfer_err _ hz)), rfl, rfl⟩, fun _ => rfl, fun _ => rfl, rfl⟩

/-- Settles O41: the two outcomes of the target test. -/
theorem jumpAndLinkSavesPcPlusFour : Obligations.JumpAndLinkSavesPcPlusFour :=
  fun _ s => ⟨executes_jal s, executes_jal_err s⟩

/-- A JAL that returned Ok left the current pc + 4 in register 31. -/
theorem register_link_of_jal_ok {address : Word} {s t : State} (h : Executes (.jal address) s t (.ok ())) :
    t.register 31 = s.pc + 4#32 := by
  by_cases hle : address.toNat ≤ 1023
  · obtain ⟨u, hu, -, hwrites, -⟩ := executes_jal s hle
    obtain ⟨rfl, -⟩ := h.unique hu
    exact hwrites 31
  · obtain ⟨u, hu, -⟩ := executes_jal_err s (Nat.not_le.1 hle)
    nomatch (h.unique hu).2

/-- Below pc = 4092 the next pc is, read as a signed register value, a valid target. -/
theorem validTarget_next {p : Word} (haligned : p.toNat % 4 = 0) (hle : p.toNat ≤ 4088) :
    (p + 4#32).toInt = ((p + 4#32).toNat : Int) ∧ ValidTarget (p + 4#32).toInt := by
  have hsum : (p + 4#32).toNat = p.toNat + 4 := by
    rw [BitVec.toNat_add, BitVec.toNat_ofNat]
    omega
  have hint : (p + 4#32).toInt = ((p + 4#32).toNat : Int) := BitVec.toInt_eq_toNat_of_lt (by omega)
  refine ⟨hint, ?_⟩
  rw [hint, hsum]
  simp only [ValidTarget, Config.pcLimit]
  omega

/-- Settles O42: register 31 holds the link, a valid target, and JR goes where its register says. -/
theorem jrReturnsAfterJal : Obligations.JrReturnsAfterJal := by
  intro address s t hvalid hle hjal
  obtain ⟨haligned, -⟩ := hvalid
  obtain ⟨hint, htarget⟩ := validTarget_next haligned hle
  have hlink := register_link_of_jal_ok hjal
  obtain ⟨hok, -⟩ := jrSetsPcToTheRegister 0 0 31 t
  rw [hlink] at hok
  obtain ⟨u, hex, hpc, -⟩ := hok htarget
  exact ⟨u, hex, BitVec.eq_of_toNat_eq (Int.ofNat_inj.1 (hpc.trans hint))⟩

end Sys2Proof.Machine
end

section
/-! The statements that compare two runs of one Instruction: what it reads and writes (spec/10_state.md R23), who uses pc
(R25), and that no error leaves a trace (spec/60_exceptions.md R185). All three follow from one lemma: two states that
agree on what the Instruction reads take the same step. -/

namespace Sys2Proof.Machine

/-- The two states `t` and `t'` are reached from `s` and `s'` by the same step: of the same shape and with the same values
written, so that they differ only where `s` and `s'` do. -/
inductive SameShape (i : Instr) (s s' : State) : State → State → Prop where
  /-- Both failed and changed nothing (R129). -/
  | failed (e : ExecError) : SameShape i s s' (s.returnErr e) (s'.returnErr e)
  /-- Both overflowed (R128). -/
  | overflow : SameShape i s s' ((s.advanceBy overflowPcStep).returnErr .overflowError)
      ((s'.advanceBy overflowPcStep).returnErr .overflowError)
  /-- Both wrote one value to the destination register (R126). -/
  | wrote (d : Reg) (v : Word) (h : i.destination = some d.num) (hj : i.op ≠ .jal) :
      SameShape i s s' (s.writeBack d v) (s'.writeBack d v)
  /-- Both stored one value in one word (R152). -/
  | stored (a : MemIndex) (v : Word) (h : i.op = .sw) (hd : i.destination = none) : SameShape i s s'
      (((s.storeWord a v).advanceBy Config.isize).returnOk) (((s'.storeWord a v).advanceBy Config.isize).returnOk)
  /-- Both did not take a BEQ (R163). -/
  | untaken (h : i.op = .beq) (hd : i.destination = none) :
      SameShape i s s' ((s.advanceBy Config.isize).returnOk) ((s'.advanceBy Config.isize).returnOk)
  /-- Both went to one target (R127). -/
  | transferred (z : Int) (h : i.op = .jr ∨ i.op = .j ∨ i.op = .beq) (hd : i.destination = none) :
      SameShape i s s' ((s.setPc (wrap32 z)).returnOk) ((s'.setPc (wrap32 z)).returnOk)
  /-- Both went to one target and linked one value (R167). -/
  | linked (z : Int) (v : Word) (h : i.op = .jal) (hd : i.destination = some Config.linkReg.num) : SameShape i s s'
      (((s.setRegister Config.linkReg v).setPc (wrap32 z)).returnOk)
      (((s'.setRegister Config.linkReg v).setPc (wrap32 z)).returnOk)

section

variable {i : Instr} {s s' t t' : State}

/-- Two states that agree on the registers an Instruction reads, on memory if it is LW and on pc if it is BEQ or JAL, take
the same step. -/
theorem exec_sameShape (hreg : ∀ k : Reg, k.num ∈ i.sources → s'.register k = s.register k)
    (hmem : i.op = .lw → s'.mem = s.mem) (hpc : i.op = .beq ∨ i.op = .jal → s'.pc = s.pc)
    (h : exec i s = .next t) (h' : exec i s' = .next t') : SameShape i s s' t t' := by
  cases i with
  | add rd rs rt | sub rd rs rt =>
    refine withRegs3_rel (fun d a b hd ha hb => ?_) (.failed _) h h'
    subst hd ha hb
    rw [hreg a (by simp [Instr.sources]), hreg b (by simp [Instr.sources])]
    exact checkedWriteBack_rel (.wrote d _ rfl nofun) .overflow
  | and rd rs rt | or rd rs rt | slt rd rs rt =>
    refine withRegs3_rel (fun d a b hd ha hb => ?_) (.failed _) h h'
    subst hd ha hb
    rw [hreg a (by simp [Instr.sources]), hreg b (by simp [Instr.sources])]
    exact .wrote d _ rfl nofun
  | addi rs rt imm =>
    refine withRegs2_rel (fun a d ha hd => ?_) (.failed _) h h'
    subst ha hd
    rw [hreg a (by simp [Instr.sources])]
    exact checkedWriteBack_rel (.wrote d _ rfl nofun) .overflow
  | lw rs rt imm =>
    refine withRegs2_rel (fun b d hb hd => ?_) (.failed _) h h'
    subst hb hd
    rw [hreg b (by simp [Instr.sources])]
    refine withMemIndex_rel (fun ea => ?_) (.failed _)
    rw [State.memory_congr (hmem rfl)]
    exact .wrote d _ rfl nofun
  | sw rs rt imm =>
    refine withRegs2_rel (fun b v hb hv => ?_) (.failed _) h h'
    subst hb hv
    rw [hreg b (by simp [Instr.sources]), hreg v (by simp [Instr.sources])]
    exact withMemIndex_rel (fun ea => .stored ea _ rfl rfl) (.failed _)
  | jr rd rs rt =>
    refine withReg_rel (fun a ha => ?_) (.failed _) h h'
    subst ha
    rw [hreg a (by simp [Instr.sources])]
    exact transfer_rel (.transferred _ (.inl rfl) rfl) (.failed _)
  | beq rs rt imm =>
    refine withRegs2_rel (fun a b ha hb => ?_) (.failed _) h h'
    subst ha hb
    rw [hreg a (by simp [Instr.sources]), hreg b (by simp [Instr.sources]), hpc (.inl rfl)]
    split
    · exact transfer_rel (.transferred _ (.inr (.inr rfl)) rfl) (.failed _)
    · exact .untaken rfl rfl
  | j address =>
    rw [exec, execJ, Host.Outcome.next.injEq] at h h'
    exact h ▸ h' ▸ transfer_rel (.transferred _ (.inr (.inl rfl)) rfl) (.failed _)
  | jal address =>
    rw [exec, execJal, Host.Outcome.next.injEq] at h h'
    rw [hpc (.inr rfl)] at h'
    exact h ▸ h' ▸ transfer_rel (.linked _ _ rfl rfl) (.failed _)

/-! ## What the same step does to each component -/

namespace SameShape

theorem result_eq (h : SameShape i s s' t t') : t'.result = t.result := by
  cases h with
  | failed | overflow | wrote | stored | untaken | transferred | linked => rfl

theorem mem_eq (h : SameShape i s s' t t') (hm : s'.mem = s.mem) : t'.mem = t.mem := by
  cases h with
  | failed | overflow | wrote | stored | untaken | transferred | linked => simp [hm]

theorem pc_eq (h : SameShape i s s' t t') (hp : s'.pc = s.pc) : t'.pc = t.pc := by
  cases h with
  | failed | overflow | wrote | stored | untaken | transferred | linked => simp [hp]

theorem sameRegisters (h : SameShape i s s' t t') (hr : SameRegisters s s') : SameRegisters t t' := by
  cases h with
  | failed | overflow | stored | untaken | transferred => exact hr
  | wrote d v => intro r; rw [s'.writeBack_writes d v r, s.writeBack_writes d v r, hr r]
  | linked z v => intro r; simp only [State.register_returnOk, State.register_setPc, State.register_setRegister, hr r]

/-- The destination register of an Ok step reads the value written, or 0 if it is register 0, in both. -/
theorem register_destination {k : Reg} (h : SameShape i s s' t t') (hk : i.destination = some k.num)
    (hr : t.Returned (.ok ())) : t'.register k = t.register k := by
  have hwritten {d : Reg} (hd : i.destination = some d.num) (v : Word) :
      (s'.setRegister d v).register k = (s.setRegister d v).register k := by
    obtain rfl : k = d := num_inj.1 (Option.some.inj (hk.symm.trans hd))
    by_cases h0 : k = 0
    · subst h0; rfl
    · rw [State.register_setRegister, State.register_setRegister, if_pos ⟨rfl, h0⟩, if_pos ⟨rfl, h0⟩]
  cases h with
  | failed | overflow => nomatch hr
  | wrote d v hd => exact hwritten hd v
  | linked z v _ hd => exact hwritten hd v
  | stored _ _ _ hnone | untaken _ hnone | transferred _ _ hnone => nomatch hk.symm.trans hnone

/-- Of the steps that do not use pc, a JR or J that returns Ok sets it to one target, and every other moves it by the same
amount (R25). -/
theorem pc_moves (h : SameShape i s s' t t') (hb : i.op ≠ .beq) (hj : i.op ≠ .jal) :
    ((i.op = .jr ∨ i.op = .j) ∧ t.Returned (.ok ()) → t'.pc = t.pc) ∧
    (¬ ((i.op = .jr ∨ i.op = .j) ∧ t.Returned (.ok ())) → t'.pc - s'.pc = t.pc - s.pc) := by
  cases h with
  | failed | overflow => exact ⟨fun ⟨_, hr⟩ => (nomatch hr), fun _ => by simp⟩
  | wrote d v hd =>
    have hno : ¬ (i.op = .jr ∨ i.op = .j) := fun hop =>
      not_takesTransfer_of_destination (s := s) hd hj (hop.imp_right .inl)
    exact ⟨fun ⟨hop, _⟩ => absurd hop hno, fun _ => by simp⟩
  | stored a v hsw => exact ⟨fun ⟨hop, _⟩ => by simp [hsw] at hop, fun _ => by simp⟩
  | transferred z hop =>
    have hjump : i.op = .jr ∨ i.op = .j := hop.imp_right (Or.resolve_right · hb)
    exact ⟨fun _ => rfl, fun hno => absurd ⟨hjump, rfl⟩ hno⟩
  | untaken hbeq => exact absurd hbeq hb
  | linked _ _ hjal => exact absurd hjal hj

end SameShape

end

/-! ## Reads and writes -/

/-- A step leaves every register alone that the table does not say it writes (R23). -/
theorem Shape.register_eq {i : Instr} {s t : State} {k : Reg} (h : Shape i s t) (hk : i.destination ≠ some k.num) :
    t.register k = s.register k := by
  cases h with
  | badRegister | badAddress | overflow | stored | untaken | transferred => rfl
  | wrote _ d v hd =>
    have hne : k ≠ d := fun e => hk (e ▸ hd)
    rw [s.writeBack_writes d v k, if_neg fun h => hne h.1]
  | linked z _ hop =>
    have hne : k ≠ Config.linkReg := by
      rintro rfl
      cases i with
      | jal => exact hk rfl
      | add | sub | and | or | slt | jr | addi | beq | lw | sw | j => nomatch hop
    simp only [State.register_returnOk, State.register_setPc, State.register_setRegister]
    exact if_neg fun h => hne h.1

/-- Settles O46: the two runs take the same step, so they agree on all it does; the frame is that of one run. -/
theorem registerReadsAndWritesFollowTheTable : Obligations.RegisterReadsAndWritesFollowTheTable := by
  rintro i s s' t t' r r' hpc hmem hreg ⟨hn, hr, -⟩ ⟨hn', hr', -⟩
  have hsame := exec_sameShape hreg (fun _ => hmem) (fun _ => hpc) hn hn'
  refine ⟨?_, hsame.pc_eq hpc, hsame.mem_eq hmem, ?_, fun k => (shape_of_exec hn).register_eq⟩
  · cases hr.symm.trans (hsame.result_eq.symm.trans hr')
    rfl
  · rintro k hk rfl
    exact hsame.register_destination hk hr

/-! ## Uses of pc -/

/-- Settles O48: at another pc an Instruction that does not use pc takes the same step. -/
theorem onlyBeqAndJalUsePc : Obligations.OnlyBeqAndJalUsePc := by
  intro i s t t' p hb hj h h'
  have hsame := exec_sameShape (s := s) (s' := { s with pc := p }) (fun _ _ => rfl) (fun _ => rfl)
    (fun hop => absurd hop (not_or.2 ⟨hb, hj⟩)) h h'
  exact ⟨hsame.sameRegisters fun _ => rfl, hsame.mem_eq rfl, hsame.result_eq, hsame.pc_moves hb hj⟩

/-! ## Earlier errors -/

theorem State.setRegister_returnErr (s : State) (e : ExecError) (d : Reg) (v : Word) :
    (s.returnErr e).setRegister d v = (s.setRegister d v).returnErr e := by
  unfold State.setRegister
  split <;> rfl

/-- Every step sets the result, so the one that stood there before is lost. -/
theorem SameShape.eq_of_returnErr {i : Instr} {s t t' : State} {e : ExecError}
    (h : SameShape i s (s.returnErr e) t t') : t' = t := by
  cases h with
  | failed | overflow | stored | untaken | transferred => rfl
  | wrote d v => rw [State.writeBack, State.setRegister_returnErr]; rfl
  | linked z v => rw [State.setRegister_returnErr]; rfl

/-- `execute` does not look at the value an earlier call returned (R185). -/
theorem exec_returnErr (i : Instr) (s : State) (e : ExecError) : exec i (s.returnErr e) = exec i s := by
  obtain ⟨t, ht, -⟩ := exec_shape i s
  obtain ⟨t', ht', -⟩ := exec_shape i (s.returnErr e)
  have hsame := exec_sameShape (s := s) (s' := s.returnErr e) (fun _ _ => rfl) (fun _ => rfl) (fun _ => rfl) ht ht'
  rw [ht, ht', hsame.eq_of_returnErr]

/-- Settles O49: a failed step changes at most the result, which no later step sees, and on overflow pc. -/
theorem earlierErrorLeavesNoTrace : Obligations.EarlierErrorLeavesNoTrace := by
  rintro i j s t e ⟨hn, hr, -⟩
  obtain rfl | ⟨rfl, rfl⟩ := (shape_of_exec hn).of_returned_error hr
  · have hpc : { s with pc := (s.returnErr e).pc } = s := rfl
    rw [hpc, ite_self, exec_returnErr]
  · rw [if_pos rfl, exec_returnErr]
    rfl

end Sys2Proof.Machine
end
